-- ==== Sys2Proof/Word.lean ====
section
/-! DEFINITION. The word types of the DDS register controller: register words, bytes, codec words, command words.
The widths are the parameters `CTL_W`, `FREQ_W`, `FREQ_HALF_W`, `PHASE_W` and the command word width of
spec/00_scope.md R5. -/

namespace Sys2Proof

/-- One byte handed to the transport (spec/20_memory.md R31, R32). -/
abbrev Byte := BitVec 8

/-- A 16-bit register word: the control-register mirror and every emitted word (R5 `CTL_W`). -/
abbrev RegWord := BitVec 16

/-- A 28-bit frequency word (R5 `FREQ_W`). -/
abbrev FreqWord := BitVec 28

/-- One of the two 14-bit frequency data fields (R5 `FREQ_HALF_W`). -/
abbrev FreqHalf := BitVec 14

/-- A 12-bit phase word (R5 `PHASE_W`). -/
abbrev PhaseWord := BitVec 12

/-- A binary64 bit pattern: sign [63], biased exponent [62:52], fraction [51:0] (spec/30_encoding.md R63). -/
abbrev Bits64 := BitVec 64

/-- The phase operand in tenths of a degree (R64). -/
abbrev Tenths := BitVec 16

/-- A 72-bit command word `CMD[71:0]` (R57). -/
abbrev Command := BitVec 72

end Sys2Proof
end

