-- ==== Sys2Proof/Syntax.lean ====
section
/-! DEFINITION. The instruction type: one constructor per row of spec/opcode_table.json. The eleven CMD72 rows are
the host's commands (spec/30_encoding.md R56 to R59); the five W16 rows are the emitted register words, each the
form of `WriteReg` that sends it (R50 to R53, spec/20_memory.md R31; log entry 5). -/

namespace Sys2Proof

/-- A channel, the one-bit operand `chan` (R60): "two channels, 0 and 1". -/
inductive Chan where
  | ch0
  | ch1
  deriving DecidableEq, Repr, Inhabited

/-- The five output modes, in the order of R62. -/
inductive Mode where
  | off
  | sine
  | triangle
  | squareHalf
  | squareFull
  deriving DecidableEq, Repr, Inhabited

/-- The instructions: seven commands (SETMODE split into its five rows, R103 to R107) and five register writes. -/
inductive Instr where
  /-- `INIT ref` (R140). -/
  | init (ref : Bits64)
  /-- `RESET hold` (R101). -/
  | reset (hold : Bool)
  /-- `SETMODE off` (R103). -/
  | setModeOff
  /-- `SETMODE sine` (R104). -/
  | setModeSine
  /-- `SETMODE triangle` (R105). -/
  | setModeTriangle
  /-- `SETMODE square_half` (R106). -/
  | setModeSquareHalf
  /-- `SETMODE square_full` (R107). -/
  | setModeSquareFull
  /-- `SETAFREQ chan` (R108). -/
  | setAFreq (chan : Chan)
  /-- `SETAPHASE chan` (R109). -/
  | setAPhase (chan : Chan)
  /-- `SETFREQ chan, freq_hz` (R120). -/
  | setFreq (chan : Chan) (freq : Bits64)
  /-- `SETPHASE chan, tenths_deg` (R122). -/
  | setPhase (chan : Chan) (tenths : Tenths)
  /-- The control-register write: "The word is `CTL` as it stands, all 16 bits" (R51). -/
  | ctrlWrite (word : RegWord)
  /-- A frequency data write to channel 0 carrying one 14-bit half (R52). -/
  | freq0Write (half : FreqHalf)
  /-- A frequency data write to channel 1 carrying one 14-bit half (R52). -/
  | freq1Write (half : FreqHalf)
  /-- A phase data write to channel 0 (R53). -/
  | phase0Write (pw : PhaseWord)
  /-- A phase data write to channel 1 (R53). -/
  | phase1Write (pw : PhaseWord)
  deriving DecidableEq, Repr

/-- An encoded instruction. A command is one 72-bit word, an emitted word has 16 bits: "every command is 72 bits;
every emitted word is 16 bits" (R68). -/
inductive CodeWord where
  | command (c : Command)
  | write (w : RegWord)
  deriving DecidableEq, Repr

end Sys2Proof
end

