-- ==== Sys2Proof/WellFormed.lean ====
section
/-! DEFINITION. Which terms of `Instr` are instructions the opcode table holds. Every operand of a command has a type
that admits exactly the table's values (a one-bit `chan` and `hold`, R60 and R61; any binary64 pattern, R63; any
16-bit `tenths_deg`, R64), and a wrong reference clock is refused by INIT's own rule, not by the form of the word
(R59). What is left to check is the control word of CTRL_WRITE (spec/30_encoding.md R51, `w & 0xF215 = 0x2000`). -/

namespace Sys2Proof

/-- Bits 15:14 of a control word are the destination tag 00 (R51, spec/20_memory.md R30). -/
def controlTagOk (w : RegWord) : Bool := w &&& 0xC000#16 == 0#16

/-- Bit 13, `B28`, is 1 in every control word (R51). -/
def controlWideOk (w : RegWord) : Bool := w &&& 0x2000#16 == 0x2000#16

/-- Bit 12, `HLB`, is 0 in every control word (R51). -/
def controlHlbOk (w : RegWord) : Bool := w &&& 0x1000#16 == 0#16

/-- The unnamed bits 9, 4, 2 and 0 are 0 in every control word (R51). -/
def controlUnnamedOk (w : RegWord) : Bool := w &&& 0x0215#16 == 0#16

/-- The checks on a term of `Instr`. -/
def Instr.wellFormed : Instr → Bool
  | .init _ => true
  | .reset _ => true
  | .setModeOff => true
  | .setModeSine => true
  | .setModeTriangle => true
  | .setModeSquareHalf => true
  | .setModeSquareFull => true
  | .setAFreq _ => true
  | .setAPhase _ => true
  | .setFreq _ _ => true
  | .setPhase _ _ => true
  | .ctrlWrite w => controlTagOk w && controlWideOk w && controlHlbOk w && controlUnnamedOk w
  | .freq0Write _ => true
  | .freq1Write _ => true
  | .phase0Write _ => true
  | .phase1Write _ => true

/-- A well-formed instruction. -/
abbrev Instr.WellFormed (i : Instr) : Prop := i.wellFormed = true

end Sys2Proof
end

