-- ==== Sys2Proof/Decode.lean ====
section
/-! DEFINITION. The decoder, total on every 72-bit command word and every 16-bit register word, rejecting by name;
and the encoder, written from the same tables (spec/30_encoding.md R50 to R53, R57 to R62). The mask and match rows
of R59 stand beside them as data. -/

namespace Sys2Proof

/-- Why a word is no instruction (R65 for the command word; R55 for the register word). -/
inductive Reject where
  /-- `op` is 0x7 to 0xF. -/
  | reservedOp
  /-- A bit of `arg` that R58 shows as 0 is set. -/
  | reservedArg
  /-- A SETMODE whose mode code is 5, 6 or 7 (R62). -/
  | reservedMode
  /-- A bit of `imm` that R58 shows as 0 is set. -/
  | reservedImm
  /-- A 16-bit word that no row of the opcode table describes: "no such word is ever emitted" (R55). -/
  | neverEmitted
  deriving DecidableEq, Repr

/-- The field `op`, `CMD[71:68]` (R57). -/
def opField (c : Command) : BitVec 4 := c.extractLsb' 68 4

/-- The field `arg`, `CMD[67:64]` (R57). -/
def argField (c : Command) : BitVec 4 := c.extractLsb' 64 4

/-- The field `imm`, `CMD[63:0]` (R57). -/
def immField (c : Command) : Bits64 := c.extractLsb' 0 64

/-- A command word from its three fields (R57). -/
def commandWord (op arg : BitVec 4) (imm : Bits64) : Command := op ++ arg ++ imm

/-- The channel a one-bit `chan` names: 0 is channel 0, 1 is channel 1 (R60). -/
def chanOfBit (b : Bool) : Chan := if b then .ch1 else .ch0

/-- The one-bit `chan` of a channel (R60). -/
def Chan.bit : Chan → Bool
  | .ch0 => false
  | .ch1 => true

/-- The mode codes of R62; also what a read of `ACTIVE_MODE` returns. -/
def Mode.code : Mode → BitVec 3
  | .off => 0
  | .sine => 1
  | .triangle => 2
  | .squareHalf => 3
  | .squareFull => 4

/-- An `arg` of the shape 000`b` with `imm` = 0 or whatever `immOk` accepts (R58). -/
def oneBitArg (c : Command) (immOk : Bool) (build : Bool → Instr) : Except Reject Instr :=
  if argField c &&& 0xE#4 ≠ 0#4 then .error .reservedArg
  else if immOk then .ok (build ((argField c).getLsbD 0))
  else .error .reservedImm

/-- The SETMODE instruction of a mode code; codes 5, 6 and 7 are reserved (R62). -/
def setModeOfCode (code : BitVec 4) : Except Reject Instr :=
  if code = 0#4 then .ok .setModeOff
  else if code = 1#4 then .ok .setModeSine
  else if code = 2#4 then .ok .setModeTriangle
  else if code = 3#4 then .ok .setModeSquareHalf
  else if code = 4#4 then .ok .setModeSquareFull
  else .error .reservedMode

/-- The decoder of command words (R58, R59, R65). -/
def decodeCommand (c : Command) : Except Reject Instr :=
  if opField c = 0#4 then
    if argField c = 0#4 then .ok (.init (immField c)) else .error .reservedArg
  else if opField c = 1#4 then oneBitArg c (immField c == 0#64) .reset
  else if opField c = 2#4 then
    if (argField c).getLsbD 3 then .error .reservedArg
    else if immField c = 0#64 then setModeOfCode (argField c)
    else .error .reservedImm
  else if opField c = 3#4 then oneBitArg c (immField c == 0#64) fun b => .setAFreq (chanOfBit b)
  else if opField c = 4#4 then oneBitArg c (immField c == 0#64) fun b => .setAPhase (chanOfBit b)
  else if opField c = 5#4 then oneBitArg c true fun b => .setFreq (chanOfBit b) (immField c)
  else if opField c = 6#4 then
    oneBitArg c ((immField c).extractLsb' 16 48 == 0#48) fun b =>
      .setPhase (chanOfBit b) ((immField c).extractLsb' 0 16)
  else .error .reservedOp

/-- The decoder of register words: the format is told by the high bits (R50), and a word that no W16 row of the
opcode table describes is rejected. -/
def decodeWrite (w : RegWord) : Except Reject Instr :=
  if w.extractLsb' 14 2 = 0#2 then
    if w &&& 0xF215#16 = 0x2000#16 then .ok (.ctrlWrite w) else .error .neverEmitted
  else if w.extractLsb' 14 2 = 1#2 then .ok (.freq0Write (w.extractLsb' 0 14))
  else if w.extractLsb' 14 2 = 2#2 then .ok (.freq1Write (w.extractLsb' 0 14))
  else if w.getLsbD 12 then .error .neverEmitted
  else if w.getLsbD 13 then .ok (.phase1Write (w.extractLsb' 0 12))
  else .ok (.phase0Write (w.extractLsb' 0 12))

/-- The decoder on both kinds of code word; the length is told by the kind (R68). -/
def decode : CodeWord → Except Reject Instr
  | .command c => decodeCommand c
  | .write w => decodeWrite w

/-- The code word that `nbits` and `w` give, bit 0 the least significant bit: a register word when `nbits` is at most
16, else a command word; every bit above `nbits` is 0. -/
def codeWordOf (nbits w : Nat) : CodeWord :=
  if nbits ≤ 16 then .write (BitVec.ofNat 16 (w % 2 ^ nbits))
  else .command (BitVec.ofNat 72 (w % 2 ^ nbits))

/-- The instruction the decoder reads from an opcode-table word of `nbits` bits. -/
def decodeTableWord (nbits w : Nat) : Option Instr :=
  match decode (codeWordOf nbits w) with
  | .ok i => some i
  | .error _ => none

/-! ## The encoder -/

/-- `arg` of the shape 000`b` (R58). -/
def bitArg (b : Bool) : BitVec 4 := if b then 1#4 else 0#4

/-- The tag of a frequency data write: 0x4000 for channel 0, 0x8000 for channel 1 (R52). -/
def freqTag : Chan → RegWord
  | .ch0 => 0x4000#16
  | .ch1 => 0x8000#16

/-- The tag of a phase data write: 0xC000 for channel 0, 0xE000 for channel 1 (R53). -/
def phaseTag : Chan → RegWord
  | .ch0 => 0xC000#16
  | .ch1 => 0xE000#16

/-- `FreqDataWord(chan, half) = FREQ_TAG(chan) | half` (R52). -/
def freqDataWord (c : Chan) (half : FreqHalf) : RegWord := freqTag c ||| half.setWidth 16

/-- `PhaseDataWord(chan, pw) = PHASE_TAG(chan) | pw` (R53). -/
def phaseDataWord (c : Chan) (pw : PhaseWord) : RegWord := phaseTag c ||| pw.setWidth 16

/-- The word of an instruction (R51 to R53, R58). -/
def encode : Instr → CodeWord
  | .init ref => .command (commandWord 0#4 0#4 ref)
  | .reset hold => .command (commandWord 1#4 (bitArg hold) 0#64)
  | .setModeOff => .command (commandWord 2#4 (Mode.off.code.setWidth 4) 0#64)
  | .setModeSine => .command (commandWord 2#4 (Mode.sine.code.setWidth 4) 0#64)
  | .setModeTriangle => .command (commandWord 2#4 (Mode.triangle.code.setWidth 4) 0#64)
  | .setModeSquareHalf => .command (commandWord 2#4 (Mode.squareHalf.code.setWidth 4) 0#64)
  | .setModeSquareFull => .command (commandWord 2#4 (Mode.squareFull.code.setWidth 4) 0#64)
  | .setAFreq c => .command (commandWord 3#4 (bitArg c.bit) 0#64)
  | .setAPhase c => .command (commandWord 4#4 (bitArg c.bit) 0#64)
  | .setFreq c f => .command (commandWord 5#4 (bitArg c.bit) f)
  | .setPhase c t => .command (commandWord 6#4 (bitArg c.bit) (t.setWidth 64))
  | .ctrlWrite w => .write w
  | .freq0Write half => .write (freqDataWord .ch0 half)
  | .freq1Write half => .write (freqDataWord .ch1 half)
  | .phase0Write pw => .write (phaseDataWord .ch0 pw)
  | .phase1Write pw => .write (phaseDataWord .ch1 pw)

/-! ## The mask and match rows -/

/-- "A 72-bit word `C` is the command of a row of `opcode_table.json` when `C & mask = match`" (R59). -/
def matchesRow (mask value c : Command) : Bool := c &&& mask == value

/-- The mask and match of each command row, in the table's order (R59). -/
def commandRows : List (Command × Command) :=
  [(0xFF0000000000000000, 0x000000000000000000),
   (0xFEFFFFFFFFFFFFFFFF, 0x100000000000000000),
   (0xFFFFFFFFFFFFFFFFFF, 0x200000000000000000),
   (0xFFFFFFFFFFFFFFFFFF, 0x210000000000000000),
   (0xFFFFFFFFFFFFFFFFFF, 0x220000000000000000),
   (0xFFFFFFFFFFFFFFFFFF, 0x230000000000000000),
   (0xFFFFFFFFFFFFFFFFFF, 0x240000000000000000),
   (0xFEFFFFFFFFFFFFFFFF, 0x300000000000000000),
   (0xFEFFFFFFFFFFFFFFFF, 0x400000000000000000),
   (0xFE0000000000000000, 0x500000000000000000),
   (0xFEFFFFFFFFFFFF0000, 0x600000000000000000)]

/-- The mask and match of each register-word row, in the table's order (R51 to R53). -/
def writeRows : List (RegWord × RegWord) :=
  [(0xF215, 0x2000), (0xC000, 0x4000), (0xC000, 0x8000), (0xF000, 0xC000), (0xF000, 0xE000)]

end Sys2Proof
end

