-- ==== Sys2Proof/Machine/Flags.lean ====
section
/-! DEFINITION. The fields of the control register and what each operation does to them (spec/10_state.md R12,
spec/41_control_ops.md R101 to R109). The block has no flags or condition codes: "no operation produces a status, a
carry, an overflow mark or a result value" (R27). -/

namespace Sys2Proof.Machine

/-- `B28`, bit 13: wide-register mode. -/
def b28Bit : RegWord := 0x2000#16
/-- `FSELECT`, bit 11: which channel's frequency register is active. -/
def fselectBit : RegWord := 0x0800#16
/-- `PSELECT`, bit 10: which channel's phase register is active. -/
def pselectBit : RegWord := 0x0400#16
/-- `RESET`, bit 8: the chip's reset bit. -/
def resetBit : RegWord := 0x0100#16

/-- `CTL | mask`. -/
def setBits (mask c : RegWord) : RegWord := c ||| mask

/-- `CTL & ~mask`. -/
def clearBits (mask c : RegWord) : RegWord := c &&& ~~~mask

/-- Set the bit for channel 1, clear it for channel 0 (R108, R109). -/
def selectChannel (mask : RegWord) : Chan → RegWord → RegWord
  | .ch0, c => clearBits mask c
  | .ch1, c => setBits mask c

/-- `ModeBits(mode, c)` (R103 to R107); bits other than 7, 6, 5, 3 and 1 pass through (R102). -/
def modeBits : Mode → RegWord → RegWord
  | .off, c => setBits 0x00C0#16 (clearBits 0x0022#16 c)
  | .sine, c => clearBits 0x00E2#16 c
  | .triangle, c => setBits 0x0002#16 (clearBits 0x00E0#16 c)
  | .squareHalf, c => setBits 0x0028#16 (clearBits 0x00C2#16 c)
  | .squareFull, c => setBits 0x0020#16 (clearBits 0x00CA#16 c)

end Sys2Proof.Machine
end

