-- ==== Sys2Proof/Machine/Binary64.lean ====
section
/-! DEFINITION. The binary64 arithmetic of spec/40_codec.md R81, exact in the middle and rounded once at the end.
Log entry 6. -/

namespace Sys2Proof.Machine

/-- A binary64 value: a NaN, an infinity, or the finite value `(-1)^neg × m × 2^e` (R81). -/
inductive F64 where
  | nan
  | inf (neg : Bool)
  | fin (neg : Bool) (m : Nat) (e : Int)
  deriving DecidableEq, Repr

/-- The value of a bit pattern: sign [63], biased exponent [62:52], fraction [51:0] (spec/30_encoding.md R63). -/
def F64.ofBits (b : Bits64) : F64 :=
  let neg := b.getLsbD 63
  let ex := (b.extractLsb' 52 11).toNat
  let fr := (b.extractLsb' 0 52).toNat
  if ex = 2047 then (if fr = 0 then .inf neg else .nan)
  else if ex = 0 then .fin neg fr (-1074)
  else .fin neg (2 ^ 52 + fr) ((ex : Int) - 1075)

/-- Neither a NaN nor an infinity. -/
def F64.isFinite : F64 → Bool
  | .fin _ _ _ => true
  | _ => false

/-- Finite and greater than zero, the domain of `ref` (spec/43_init.md R144). -/
def F64.isFinitePositive : F64 → Bool
  | .fin neg m _ => !neg && m != 0
  | _ => false

/-- An exact rational number; `den` is positive in every use. -/
structure Frac where
  num : Int
  den : Nat
  deriving DecidableEq, Repr

/-- The real number a finite value stands for; both zeros are the real number 0 (R81). -/
def finFrac (neg : Bool) (m : Nat) (e : Int) : Frac where
  num := (if neg then -1 else 1) * ((m : Int) * 2 ^ e.toNat)
  den := 2 ^ (-e).toNat

/-- Exact product. -/
def Frac.mul (a b : Frac) : Frac := ⟨a.num * b.num, a.den * b.den⟩

/-- Exact quotient; used only with `b` not zero. -/
def Frac.div (a b : Frac) : Frac :=
  ⟨a.num * (if b.num < 0 then -1 else 1) * b.den, a.den * b.num.natAbs⟩

/-- Exact sum. -/
def Frac.add (a b : Frac) : Frac := ⟨a.num * b.den + b.num * a.den, a.den * b.den⟩

/-- `floor(log2 (n / d))` for positive `n` and `d`. -/
def floorLog2 (n d : Nat) : Int :=
  let k : Int := (n.log2 : Int) - (d.log2 : Int)
  if d * 2 ^ k.toNat ≤ n * 2 ^ (-k).toNat then k else k - 1

/-- The integer nearest `n / d`, the even one when two are equally near. -/
def roundHalfEven (n d : Nat) : Nat :=
  let q := n / d
  let r := n % d
  if d < 2 * r ∨ (2 * r = d ∧ q % 2 = 1) then q + 1 else q

/-- Where `RN64` leaves the finite values: `2^1024 - 2^970` (R81). -/
def f64Overflow : Nat := 2 ^ 1024 - 2 ^ 970

/-- `RN64(r)`: the finite binary64 value nearest `r`, ties to even, and an infinity by the sign of `r` when
`|r| ≥ 2^1024 - 2^970` (R81). -/
@[irreducible] def rn64 (r : Frac) : F64 :=
  let neg := decide (r.num < 0)
  let n := r.num.natAbs
  if n = 0 then .fin false 0 (-1074)
  else if f64Overflow * r.den ≤ n then .inf neg
  else
    let e : Int := max (-1074) (floorLog2 n r.den - 52)
    let m := roundHalfEven (n * 2 ^ (-e).toNat) (r.den * 2 ^ e.toNat)
    if m = 2 ^ 53 then .fin neg (2 ^ 52) (e + 1) else .fin neg m e

/-- `fmul(a, b) = RN64(a × b)`; an infinity times a finite value greater than zero keeps its sign; every other
non-finite case stays non-finite (R81). -/
def fmul : F64 → F64 → F64
  | .fin na ma ea, .fin nb mb eb => rn64 ((finFrac na ma ea).mul (finFrac nb mb eb))
  | .inf n, .fin false m _ => if m = 0 then .nan else .inf n
  | _, _ => .nan

/-- `fdiv(a, b) = RN64(a / b)` for `b` not zero; as `fmul` in the non-finite cases. R81 defines no other quotient:
those are NaN, so that a word computed from one is a free value (log entry 6). -/
def fdiv : F64 → F64 → F64
  | .fin na ma ea, .fin nb mb eb =>
    if mb = 0 then .nan else rn64 ((finFrac na ma ea).div (finFrac nb mb eb))
  | .inf n, .fin false m _ => if m = 0 then .nan else .inf n
  | _, _ => .nan

/-- `fadd(a, b) = RN64(a + b)`; an infinity plus a finite value is that infinity (R81). -/
def fadd : F64 → F64 → F64
  | .fin na ma ea, .fin nb mb eb => rn64 ((finFrac na ma ea).add (finFrac nb mb eb))
  | .inf n, .fin _ _ _ => .inf n
  | .fin _ _ _, .inf n => .inf n
  | _, _ => .nan

/-- `trunc(s)`: "the integer obtained by dropping the fraction (rounding toward zero)" (R81); defined for finite `s`
only. -/
def F64.trunc : F64 → Option Int
  | .fin neg m e =>
    let q : Int := ((m * 2 ^ e.toNat / 2 ^ (-e).toNat : Nat) : Int)
    some (if neg then -q else q)
  | _ => none

end Sys2Proof.Machine
end

