-- ==== Sys2Proof/Machine/Operands.lean ====
section
/-! DEFINITION. The register word codec: the two pure functions that turn an operand into the word the chip takes,
and the split of a frequency word (spec/40_codec.md). -/

namespace Sys2Proof.Machine

/-- The multiplier `268435456.0 = 2^28` (R82). -/
def freqScale : F64 := .fin false 1 28

/-- The value `0.5` added before truncation (R82). -/
def oneHalf : F64 := .fin false 1 (-1)

/-- The integer `n = trunc(s)` of R82, with `s = fadd(fdiv(fmul(f, 2^28), ref), 0.5)`; none where an intermediate
value is not finite (R85). -/
def frequencyCount (f ref : F64) : Option Int :=
  if !f.isFinite then none
  else
    let p := fmul f freqScale
    if !p.isFinite then none
    else
      let q := fdiv p ref
      if !q.isFinite then none
      else (fadd q oneHalf).trunc

/-- `frequency_hz_to_word_28bit(f, ref)`: `n mod 2^28` (R82 to R84); none where the result is the open parameter
`FREQ_NONFINITE_WORD` (R85). -/
def frequencyWord? (f ref : Bits64) : Option FreqWord :=
  (frequencyCount (F64.ofBits f) (F64.ofBits ref)).map (BitVec.ofInt 28)

/-- `phase_units(t) = floor((512 × t + 225) / 450)` (R87). -/
def phaseUnits (t : Tenths) : Nat := (512 * t.toNat + 225) / 450

/-- `phase_tenths_deg_to_word_12bit(t) = phase_units(t) mod 4096` (R87). -/
def phaseWord (t : Tenths) : PhaseWord := BitVec.ofNat 12 (phaseUnits t)

/-- `lo14(fw) = fw[13:0]` (R90). -/
def lo14 (fw : FreqWord) : FreqHalf := fw.extractLsb' 0 14

/-- `hi14(fw) = fw[27:14]` (R90). -/
def hi14 (fw : FreqWord) : FreqHalf := fw.extractLsb' 14 14

/-- Whether `ref` is in the contract of INIT: "finite and greater than zero" (spec/43_init.md R144). -/
def validReferenceClock (ref : Bits64) : Bool := (F64.ofBits ref).isFinitePositive

end Sys2Proof.Machine
end

