-- ==== Sys2Proof/Config.lean ====
section
/-! DEFINITION. The free values: constants with no body, so that no proof can see what they are. Each stands for a
value the spec leaves open (spec/00_scope.md R5 `OPEN`, spec/92_eei_decisions.md "Parameters left open"). -/

namespace Sys2Proof.Config

/-- `FREQ_NONFINITE_WORD`: "any 28-bit value, chosen anew at each evaluation and under no law"
(spec/40_codec.md R85). The argument is the number of the draw (`State.draws`). Log entry 1. -/
opaque freqNonfiniteWord : Nat → FreqWord

/-! Values held before anything is written: "A model must not assume zeros" (spec/70_reset_and_hazards.md R170).
Log entry 2. -/

/-- What `CTL` holds before the first INIT. -/
opaque powerOnCtl : RegWord
/-- What `REFCLK` holds before the first INIT. -/
opaque powerOnRefclk : Bits64
/-- What `ACTIVE_MODE` holds before the first INIT. -/
opaque powerOnMode : Mode
/-- What `REQF[c]` holds before anything is written to it. -/
opaque powerOnReqf : Chan → Bits64
/-- What `FREQW[c]` holds before anything is written to it. -/
opaque powerOnFreqw : Chan → FreqWord
/-- What `REQP[c]` holds before anything is written to it. -/
opaque powerOnReqp : Chan → Tenths
/-- What `PHASEW[c]` holds before anything is written to it. -/
opaque powerOnPhasew : Chan → PhaseWord

/-! What an introspection read of an element with no value returns: "any value of the element's type"
(spec/10_state.md R24), drawn per read. The argument is the number of the read. Log entry 3. -/

/-- An introspection read of `CTL` while it has no value. -/
opaque readCtl : Nat → RegWord
/-- An introspection read of `REFCLK` while it has no value. -/
opaque readRefclk : Nat → Bits64
/-- An introspection read of `ACTIVE_MODE` while it has no value. -/
opaque readMode : Nat → Mode
/-- An introspection read of `REQF[c]` while it has no value. -/
opaque readReqf : Nat → Bits64
/-- An introspection read of `FREQW[c]` while it has no value. -/
opaque readFreqw : Nat → FreqWord
/-- An introspection read of `REQP[c]` while it has no value. -/
opaque readReqp : Nat → Tenths
/-- An introspection read of `PHASEW[c]` while it has no value. -/
opaque readPhasew : Nat → PhaseWord

end Sys2Proof.Config
end

