-- ==== Sys2Proof/Machine/State.lean ====
section
/-! DEFINITION. The state of the controller as plain data (spec/10_state.md R10 to R26), the state before the first
INIT, and the reasons a step can stop. The eight elements of R10 come first; `tx` is the observation of R9; the
rest is the model's own (log entries 1, 3, 4, 5). -/

namespace Sys2Proof.Machine

/-- A transport event (spec/20_memory.md R31). -/
inductive Event where
  /-- "assert chip-select (begin a transaction)". -/
  | select
  /-- "send exactly one 16-bit register word", first byte then second byte. -/
  | transmit (first second : Byte)
  /-- "deassert chip-select (end a transaction)". -/
  | deselect
  deriving DecidableEq, Repr

/-- The cached values of one channel (R15 to R17), and for each pair of them the mark that it has a value
(R23, R24). The marks are the model's own: log entry 3. -/
structure Channel where
  /-- `REQF[c]`: the binary64 operand of the last SETFREQ, bit for bit (R17). -/
  reqf : Bits64
  /-- `FREQW[c]`: the cached frequency word (R15). -/
  freqw : FreqWord
  /-- `REQP[c]`: the operand of the last SETPHASE (R17). -/
  reqp : Tenths
  /-- `PHASEW[c]`: the cached phase word (R16). -/
  phasew : PhaseWord
  /-- Whether `REQF[c]` and `FREQW[c]` have a value. -/
  freqWritten : Bool
  /-- Whether `REQP[c]` and `PHASEW[c]` have a value. -/
  phaseWritten : Bool
  deriving DecidableEq, Repr

/-- The state of the machine. -/
structure State where
  /-- `INITED`: false from power-on until the first INIT is accepted (R22). -/
  inited : Bool
  /-- `CTL`: the mirror of the chip's control register (R11, R12). -/
  ctl : RegWord
  /-- `REFCLK`: the reference clock, a binary64 pattern (R21). -/
  refclk : Bits64
  /-- `ACTIVE_MODE`: the last SETMODE operand (R20). -/
  activeMode : Mode
  /-- The cached values of channel 0 (R19). -/
  ch0 : Channel
  /-- The cached values of channel 1 (R19). -/
  ch1 : Channel
  /-- `TX`: every transport event so far, oldest first (spec/00_scope.md R7, R9). -/
  tx : List Event
  /-- How many values have been drawn of `Config.freqNonfiniteWord` (spec/40_codec.md R85; the model's own). -/
  draws : Nat
  /-- The commands the host has still to issue, next first (R25: the index into the host's command list). -/
  commands : List Command
  /-- The register words waiting at the write primitive, next first (R26: the sequencer; log entry 5). -/
  writes : List RegWord
  deriving DecidableEq, Repr

/-- The reasons for a fault: none. "The list of exception causes is empty" (spec/60_exceptions.md R150); "nothing in
this hardware is `fault`" (spec/93_implementation_defined.md). -/
inductive Fault where
  deriving DecidableEq, Repr

/-- The reasons for a refusal: the closed list of spec/60_exceptions.md R154, the model's two own reasons, and the
host's. A refusal is safe: nothing is claimed of a run that holds one. -/
inductive Refusal where
  /-- Raised by `exec` for an instruction with no meaning yet; no arm raises it. Safe. -/
  | notModelled (mnemonic : String)
  /-- `invalid_encoding`: raised by `step` when the 72-bit word matches no row of the opcode table (R65). Safe. -/
  | invalidEncoding
  /-- `not_initialised`: raised by every command but INIT while `INITED` is 0 (spec/41_control_ops.md R100). Safe. -/
  | notInitialised
  /-- `bad_reference_clock`: raised by INIT when `ref` is not finite and greater than zero (spec/43_init.md R144).
  Safe. -/
  | badReferenceClock
  /-- `concurrent_access`: "A second command presented while one is in progress has no defined meaning; a model has
  no step for it" (R158). Nothing raises it, since a command is one step. Safe. -/
  | concurrentAccess
  /-- Raised by `step` for a word at the write primitive that no W16 row of the opcode table describes:
  "no such word is ever emitted" (spec/30_encoding.md R55). Safe; log entry 5. -/
  | neverEmitted
  deriving DecidableEq, Repr

/-- A channel before anything is written to it: no element has a value, so each holds a free constant
(spec/70_reset_and_hazards.md R170; log entry 2). -/
def Channel.reset (c : Chan) : Channel where
  reqf := Config.powerOnReqf c
  freqw := Config.powerOnFreqw c
  reqp := Config.powerOnReqp c
  phasew := Config.powerOnPhasew c
  freqWritten := false
  phaseWritten := false

/-- The machine at power-on: "`INITED = 0` and no other element has a value", "`TX` is empty" (R170). -/
def State.reset : State where
  inited := false
  ctl := Config.powerOnCtl
  refclk := Config.powerOnRefclk
  activeMode := Config.powerOnMode
  ch0 := Channel.reset .ch0
  ch1 := Channel.reset .ch1
  tx := []
  draws := 0
  commands := []
  writes := []

end Sys2Proof.Machine
end

