-- ==== Sys2Proof/Machine/Ops.lean ====
section
/-! DEFINITION. The operations the meanings share: access to a channel, the write primitive, the precondition of the
commands, and the operations of spec/41_control_ops.md and spec/42_data_ops.md as functions of the state, which
INIT composes (spec/43_init.md R140). There is no exception to take and none to return from (R150, R155). -/

namespace Sys2Proof.Machine

/-- The cached values of a channel (spec/10_state.md R19). -/
def State.chan (s : State) : Chan → Channel
  | .ch0 => s.ch0
  | .ch1 => s.ch1

/-- `s` with the cached values of one channel replaced. -/
def State.setChan (s : State) (c : Chan) (v : Channel) : State :=
  match c with
  | .ch0 => { s with ch0 := v }
  | .ch1 => { s with ch1 := v }

/-- The three events of one register write, most significant byte first (spec/20_memory.md R31, R32). -/
def frame (w : RegWord) : List Event :=
  [.select, .transmit (w.extractLsb' 8 8) (w.extractLsb' 0 8), .deselect]

/-- `WriteReg(w)` (R31). -/
def State.writeReg (s : State) (w : RegWord) : State := { s with tx := s.tx ++ frame w }

/-- The events of a list of register writes, in order (R33). -/
def frames (ws : List RegWord) : List Event := ws.flatMap frame

/-- `TX` "abbreviated as the list of its words" (R31). -/
def words : List Event → List RegWord
  | [] => []
  | .transmit first second :: es => (first ++ second) :: words es
  | .select :: es => words es
  | .deselect :: es => words es

/-- The common precondition `INITED = 1` of every command but INIT; otherwise `refuse(not_initialised)`
(spec/41_control_ops.md R100). -/
def State.whenInited (s : State) (t : State) : Host.Outcome State Fault Refusal :=
  if s.inited then .next t else .refused .notInitialised

/-- `CTL <- v; WriteReg(CTL)`: every change of `CTL` is transmitted (spec/10_state.md R14). -/
def State.putCtl (s : State) (v : RegWord) : State := { s with ctl := v }.writeReg v

/-- RESET after its precondition (spec/41_control_ops.md R101). -/
def State.doReset (s : State) (hold : Bool) : State :=
  let s1 := s.putCtl (setBits resetBit s.ctl)
  if hold then s1 else s1.putCtl (clearBits resetBit s1.ctl)

/-- SETMODE after its precondition (R102). -/
def State.doSetMode (s : State) (mode : Mode) : State :=
  { s with activeMode := mode }.putCtl (modeBits mode s.ctl)

/-- SETAFREQ after its precondition (R108). -/
def State.doSetAFreq (s : State) (c : Chan) : State := s.putCtl (selectChannel fselectBit c s.ctl)

/-- SETAPHASE after its precondition (R109). -/
def State.doSetAPhase (s : State) (c : Chan) : State := s.putCtl (selectChannel pselectBit c s.ctl)

/-- The frequency word SETFREQ stores: the codec's, or the next draw of `FREQ_NONFINITE_WORD`
(spec/40_codec.md R82, R85). -/
def State.frequencyWord (s : State) (f : Bits64) : FreqWord :=
  (frequencyWord? f s.refclk).getD (Config.freqNonfiniteWord s.draws)

/-- The number of draws after a SETFREQ: one more if the word was drawn (R85). -/
def State.drawsAfter (s : State) (f : Bits64) : Nat :=
  if (frequencyWord? f s.refclk).isSome then s.draws else s.draws + 1

/-- The state changes of SETFREQ that precede its writes: the request, the word, the forced `B28`
(spec/42_data_ops.md R120). -/
def State.storeFreq (s : State) (c : Chan) (f : Bits64) : State :=
  { s.setChan c { s.chan c with reqf := f, freqw := s.frequencyWord f, freqWritten := true } with
    ctl := setBits b28Bit s.ctl
    draws := s.drawsAfter f }

/-- SETFREQ after its precondition: "exactly 3 transactions in order {control-register, low-word, high-word}"
(R120, R121). -/
def State.doSetFreq (s : State) (c : Chan) (f : Bits64) : State :=
  let s1 := s.storeFreq c f
  let fw := (s1.chan c).freqw
  ((s1.writeReg s1.ctl).writeReg (freqDataWord c (lo14 fw))).writeReg (freqDataWord c (hi14 fw))

/-- The state changes of SETPHASE (R122). -/
def State.storePhase (s : State) (c : Chan) (t : Tenths) : State :=
  s.setChan c { s.chan c with reqp := t, phasew := phaseWord t, phaseWritten := true }

/-- SETPHASE after its precondition: one tagged write, no control word (R122). -/
def State.doSetPhase (s : State) (c : Chan) (t : Tenths) : State :=
  let s1 := s.storePhase c t
  s1.writeReg (phaseDataWord c (s1.chan c).phasew)

end Sys2Proof.Machine
end

