-- ==== Sys2Proof/Machine/Control.lean ====
section
/-! DEFINITION. The control-register operations: RESET, the five SETMODE rows, SETAFREQ, SETAPHASE
(spec/41_control_ops.md). -/

namespace Sys2Proof.Machine

/-- `RESET hold` (R101). -/
def execReset (hold : Bool) (s : State) : Host.Outcome State Fault Refusal :=
  s.whenInited (s.doReset hold)

/-- `SETMODE off` (R102, R103). -/
def execSetModeOff (s : State) : Host.Outcome State Fault Refusal :=
  s.whenInited (s.doSetMode .off)

/-- `SETMODE sine` (R102, R104). -/
def execSetModeSine (s : State) : Host.Outcome State Fault Refusal :=
  s.whenInited (s.doSetMode .sine)

/-- `SETMODE triangle` (R102, R105). -/
def execSetModeTriangle (s : State) : Host.Outcome State Fault Refusal :=
  s.whenInited (s.doSetMode .triangle)

/-- `SETMODE square_half` (R102, R106). -/
def execSetModeSquareHalf (s : State) : Host.Outcome State Fault Refusal :=
  s.whenInited (s.doSetMode .squareHalf)

/-- `SETMODE square_full` (R102, R107). -/
def execSetModeSquareFull (s : State) : Host.Outcome State Fault Refusal :=
  s.whenInited (s.doSetMode .squareFull)

/-- `SETAFREQ chan` (R108). -/
def execSetAFreq (c : Chan) (s : State) : Host.Outcome State Fault Refusal :=
  s.whenInited (s.doSetAFreq c)

/-- `SETAPHASE chan` (R109). -/
def execSetAPhase (c : Chan) (s : State) : Host.Outcome State Fault Refusal :=
  s.whenInited (s.doSetAPhase c)

end Sys2Proof.Machine
end

