-- ==== Sys2Proof/Machine/Data.lean ====
section
/-! DEFINITION. The frequency and phase operations: SETFREQ, SETPHASE (spec/42_data_ops.md). -/

namespace Sys2Proof.Machine

/-- `SETFREQ chan, freq_hz` (R120): "every `freq_hz` is accepted and exactly three writes follow". -/
def execSetFreq (c : Chan) (f : Bits64) (s : State) : Host.Outcome State Fault Refusal :=
  s.whenInited (s.doSetFreq c f)

/-- `SETPHASE chan, tenths_deg` (R122). -/
def execSetPhase (c : Chan) (t : Tenths) (s : State) : Host.Outcome State Fault Refusal :=
  s.whenInited (s.doSetPhase c t)

end Sys2Proof.Machine
end

