-- ==== Sys2Proof/Machine/Init.lean ====
section
/-! DEFINITION. INIT, the fixed composition of the other operations that creates the controller state
(spec/43_init.md). -/

namespace Sys2Proof.Machine

/-- The binary64 pattern of 1000.0, `INIT_FREQ_HZ` (spec/10_state.md R23). -/
def initFreq : Bits64 := 0x408F400000000000#64

/-- The seed of `CTL`: "`B28` set, every other bit 0" (R140). -/
def seedCtl : RegWord := 0x2000#16

/-- The body of INIT, line by line (R140). -/
def State.doInit (s : State) (ref : Bits64) : State :=
  let s := { s with refclk := ref, inited := true }
  let s := s.putCtl seedCtl
  let s := s.doReset true
  let s := s.doSetFreq .ch0 initFreq
  let s := s.doSetPhase .ch0 0#16
  let s := s.doReset false
  let s := s.doSetMode .sine
  let s := s.doSetAFreq .ch0
  s.doSetAPhase .ch0

/-- `INIT ref` (R140); `refuse(bad_reference_clock)` unless `ref` is finite and greater than zero (R144). -/
def execInit (ref : Bits64) (s : State) : Host.Outcome State Fault Refusal :=
  if validReferenceClock ref then .next (s.doInit ref) else .refused .badReferenceClock

end Sys2Proof.Machine
end

