-- ==== Sys2Proof/Machine/Write.lean ====
section
/-! DEFINITION. The register writes: the five forms of an emitted word, each `WriteReg` of its word
(spec/20_memory.md R31, spec/30_encoding.md R51 to R53). They are what a command's writes are made of; the host
issues none of them itself (log entry 5). -/

namespace Sys2Proof.Machine

/-- The control-register write (R51). -/
def execCtrlWrite (w : RegWord) (s : State) : Host.Outcome State Fault Refusal :=
  .next (s.writeReg w)

/-- The frequency data write to channel 0 (R52). -/
def execFreq0Write (half : FreqHalf) (s : State) : Host.Outcome State Fault Refusal :=
  .next (s.writeReg (freqDataWord .ch0 half))

/-- The frequency data write to channel 1 (R52). -/
def execFreq1Write (half : FreqHalf) (s : State) : Host.Outcome State Fault Refusal :=
  .next (s.writeReg (freqDataWord .ch1 half))

/-- The phase data write to channel 0 (R53). -/
def execPhase0Write (pw : PhaseWord) (s : State) : Host.Outcome State Fault Refusal :=
  .next (s.writeReg (phaseDataWord .ch0 pw))

/-- The phase data write to channel 1 (R53). -/
def execPhase1Write (pw : PhaseWord) (s : State) : Host.Outcome State Fault Refusal :=
  .next (s.writeReg (phaseDataWord .ch1 pw))

end Sys2Proof.Machine
end

