-- ==== Sys2Proof/Machine/Dispatch.lean ====
section
/-! DEFINITION. The dispatch: one arm per instruction, each one call of its meaning. -/

namespace Sys2Proof.Machine

def exec (i : Instr) (s : State) : Host.Outcome State Fault Refusal :=
  match i with
  | .init ref => Sys2Proof.Machine.execInit ref s
  | .reset hold => Sys2Proof.Machine.execReset hold s
  | .setModeOff => Sys2Proof.Machine.execSetModeOff s
  | .setModeSine => Sys2Proof.Machine.execSetModeSine s
  | .setModeTriangle => Sys2Proof.Machine.execSetModeTriangle s
  | .setModeSquareHalf => Sys2Proof.Machine.execSetModeSquareHalf s
  | .setModeSquareFull => Sys2Proof.Machine.execSetModeSquareFull s
  | .setAFreq c => Sys2Proof.Machine.execSetAFreq c s
  | .setAPhase c => Sys2Proof.Machine.execSetAPhase c s
  | .setFreq c f => Sys2Proof.Machine.execSetFreq c f s
  | .setPhase c t => Sys2Proof.Machine.execSetPhase c t s
  | .ctrlWrite w => Sys2Proof.Machine.execCtrlWrite w s
  | .freq0Write half => Sys2Proof.Machine.execFreq0Write half s
  | .freq1Write half => Sys2Proof.Machine.execFreq1Write half s
  | .phase0Write pw => Sys2Proof.Machine.execPhase0Write pw s
  | .phase1Write pw => Sys2Proof.Machine.execPhase1Write pw s

end Sys2Proof.Machine
end

