-- ==== Sys2Proof/Machine/Fetch.lean ====
section
/-! DEFINITION. What the controller is handed next, and how a word is put there (spec/10_state.md R25, R26). -/

namespace Sys2Proof.Machine

/-- The code word the next step takes, and the state without it: the sequencer's next register write, else the host's
next command, else nothing (log entries 4, 5). -/
def State.fetch (s : State) : Option (CodeWord × State) :=
  match s.writes, s.commands with
  | w :: ws, _ => some (.write w, { s with writes := ws })
  | [], c :: cs => some (.command c, { s with commands := cs })
  | [], [] => none

/-- The refusal of a word that is no instruction: `invalid_encoding` for a command word (spec/30_encoding.md R65), the
model's own reason for a register word. -/
def refusalOf : CodeWord → Refusal
  | .command _ => .invalidEncoding
  | .write _ => .neverEmitted

/-- `s` with a code word where the next step fetches: a register word goes first at the write primitive, a command
word first in the host's list, with no register write before it. -/
def State.withCodeWord (s : State) : CodeWord → State
  | .write w => { s with writes := w :: s.writes }
  | .command c => { s with writes := [], commands := c :: s.commands }

end Sys2Proof.Machine
end

