-- ==== Sys2Proof/Machine/Step.lean ====
section
/-! DEFINITION. The step: "The host hands it one command at a time and the command runs to completion before
returning" (spec/10_state.md R25, R26). -/

namespace Sys2Proof.Machine

/-- One step: take the next code word, decode it and run it. With nothing to take, the controller stays idle. A word
that is no instruction is refused before anything else (spec/60_exceptions.md R153). -/
def step (s : State) : Host.Outcome State Fault Refusal :=
  match s.fetch with
  | none => .next s
  | some (cw, t) =>
    match decode cw with
    | .ok i => exec i t
    | .error _ => .refused (refusalOf cw)

/-- `s` with an opcode-table word of `nbits` bits where the next step fetches. -/
def State.withFetchWord (s : State) (nbits w : Nat) : State := s.withCodeWord (codeWordOf nbits w)

end Sys2Proof.Machine
end

