-- ==== Sys2Proof/Machine/Introspect.lean ====
section
/-! DEFINITION. Introspection: the host's read of each element of spec/10_state.md R10 (R28). A read is a function of
the state, so it changes nothing and appends nothing to `TX`. An element that has no value reads as a free value,
drawn by the number `n` of the read (R24; log entry 3). -/

namespace Sys2Proof.Machine

/-- Read `INITED`; it has a value at all times (R22). -/
def State.introspectInited (s : State) : Bool := s.inited

/-- Read `CTL`. -/
def State.introspectCtl (s : State) (n : Nat) : RegWord := if s.inited then s.ctl else Config.readCtl n

/-- Read `REFCLK`. -/
def State.introspectRefclk (s : State) (n : Nat) : Bits64 := if s.inited then s.refclk else Config.readRefclk n

/-- Read `ACTIVE_MODE`, in the coding of spec/30_encoding.md R62. -/
def State.introspectMode (s : State) (n : Nat) : BitVec 3 :=
  (if s.inited then s.activeMode else Config.readMode n).code

/-- Read `REQF[c]`. -/
def State.introspectReqf (s : State) (c : Chan) (n : Nat) : Bits64 :=
  if (s.chan c).freqWritten then (s.chan c).reqf else Config.readReqf n

/-- Read `FREQW[c]`: "cached, not recomputed on read" (R15). -/
def State.introspectFreqw (s : State) (c : Chan) (n : Nat) : FreqWord :=
  if (s.chan c).freqWritten then (s.chan c).freqw else Config.readFreqw n

/-- Read `REQP[c]`. -/
def State.introspectReqp (s : State) (c : Chan) (n : Nat) : Tenths :=
  if (s.chan c).phaseWritten then (s.chan c).reqp else Config.readReqp n

/-- Read `PHASEW[c]`. -/
def State.introspectPhasew (s : State) (c : Chan) (n : Nat) : PhaseWord :=
  if (s.chan c).phaseWritten then (s.chan c).phasew else Config.readPhasew n

end Sys2Proof.Machine
end

