-- ==== Sys2Proof/Machine/Replay.lean ====
section
/-! DEFINITION. Reading `TX`: the destination of an emitted word, and the replay of the words into a picture of the
chip's registers (spec/20_memory.md R36; spec/30_encoding.md R52, R55). The picture is computed from `TX`; it is no
state, and no meaning reads it. Log entry 7. -/

namespace Sys2Proof.Machine

/-- The five destinations of spec/20_memory.md R30. -/
inductive Dest where
  | control
  | freq (c : Chan)
  | phase (c : Chan)
  deriving DecidableEq, Repr

/-- `dest(w)`, total on 16-bit words (R36). -/
def dest (w : RegWord) : Dest :=
  if w.extractLsb' 14 2 = 0#2 then .control
  else if w.extractLsb' 14 2 = 1#2 then .freq .ch0
  else if w.extractLsb' 14 2 = 2#2 then .freq .ch1
  else if w.extractLsb' 13 3 = 6#3 then .phase .ch0
  else .phase .ch1

/-- Which half of a frequency word a FREQ word carries: "it is told by position" (R52). -/
inductive Half where
  | low
  | high
  deriving DecidableEq, Repr

/-- What a control word says: the fields with a meaning (spec/10_state.md R12). The unnamed bits, and `HLB`, which has
"a name only", are not among them: a model that decodes `TX` "should accept any 16-bit word and ignore those bits"
(spec/30_encoding.md R55). -/
structure ControlFields where
  b28 : Bool
  fselect : Bool
  pselect : Bool
  reset : Bool
  sleep1 : Bool
  sleep12 : Bool
  opbiten : Bool
  div2 : Bool
  mode : Bool
  deriving DecidableEq, Repr

/-- The fields of a control word at their bits (R12); bits 15, 14, 12, 9, 4, 2 and 0 are ignored (R55). -/
def controlFields (w : RegWord) : ControlFields where
  b28 := w.getLsbD 13
  fselect := w.getLsbD 11
  pselect := w.getLsbD 10
  reset := w.getLsbD 8
  sleep1 := w.getLsbD 7
  sleep12 := w.getLsbD 6
  opbiten := w.getLsbD 5
  div2 := w.getLsbD 3
  mode := w.getLsbD 1

/-- What the words so far put in the chip's registers of one channel. -/
structure ChipChannel where
  low : Option FreqHalf
  high : Option FreqHalf
  phase : Option PhaseWord
  deriving DecidableEq, Repr

/-- What the words so far put in the chip's registers, and which half the next FREQ word carries. -/
structure Picture where
  control : Option ControlFields
  ch0 : ChipChannel
  ch1 : ChipChannel
  next : Option Half
  deriving DecidableEq, Repr

/-- No word sent yet: "What the chip holds at that point is outside this spec" (spec/70_reset_and_hazards.md R170). -/
def Picture.empty : Picture := ⟨none, ⟨none, none, none⟩, ⟨none, none, none⟩, none⟩

/-- The picture of one channel. -/
def Picture.chan (p : Picture) : Chan → ChipChannel
  | .ch0 => p.ch0
  | .ch1 => p.ch1

/-- The picture with one channel replaced. -/
def Picture.setChan (p : Picture) (c : Chan) (v : ChipChannel) : Picture :=
  match c with
  | .ch0 => { p with ch0 := v }
  | .ch1 => { p with ch1 := v }

/-- One FREQ word: the first after a control word with `B28` set is the low half and the second the high half (R52);
a FREQ word in any other position is never emitted and is not placed. -/
def Picture.placeHalf (p : Picture) (c : Chan) (h : FreqHalf) : Picture :=
  match p.next with
  | some .low => { p.setChan c { p.chan c with low := some h } with next := some .high }
  | some .high => { p.setChan c { p.chan c with high := some h } with next := none }
  | none => p

/-- The picture after one more word, whatever word it is; the bits R55 calls reserved are ignored: those
`controlFields` leaves out, and bit 12 of a phase word. -/
def Picture.receive (p : Picture) (w : RegWord) : Picture :=
  match dest w with
  | .control =>
    { p with control := some (controlFields w), next := if (controlFields w).b28 then some .low else none }
  | .freq c => p.placeHalf c (w.extractLsb' 0 14)
  | .phase c => p.setChan c { p.chan c with phase := some (w.extractLsb' 0 12) }

/-- The picture after a list of words. -/
def replay (ws : List RegWord) : Picture := ws.foldl Picture.receive .empty

/-- The frequency word in the picture of a channel, once both halves are there: `(hi14 << 14) | lo14` (R54). -/
def ChipChannel.freq (v : ChipChannel) : Option FreqWord :=
  match v.high, v.low with
  | some h, some l => some (h ++ l)
  | _, _ => none

/-- The chip-select level after one event (spec/20_memory.md R31). -/
def levelAfter (level : Bool) : Event → Bool
  | .select => true
  | .transmit _ _ => level
  | .deselect => false

/-- Whether chip-select is asserted after the events of `TX`, from deasserted (spec/10_state.md R26). -/
def chipSelected (es : List Event) : Bool := es.foldl levelAfter false

end Sys2Proof.Machine
end

