-- ==== Sys2Proof/Safety.lean ====
section
/-! DEFINITION. The terms claims are stated in: the exact value of a binary64 number, the invariants of a run, and
the number of register writes of an instruction. -/

namespace Sys2Proof.Machine

/-! ## Exact values (spec/40_codec.md R81) -/

/-- The rational number a fraction stands for. -/
def Frac.toRat (r : Frac) : ℚ := (r.num : ℚ) / (r.den : ℚ)

/-- The real number a finite binary64 value stands for; 0 for the others, for which no claim uses it. -/
def F64.toRat : F64 → ℚ
  | .fin neg m e => (if neg then -1 else 1) * (m : ℚ) * (2 : ℚ) ^ e
  | _ => 0

/-- A finite binary64 value: `0 ≤ m < 2^53` and `-1074 ≤ e ≤ 971`. -/
def F64.Representable : F64 → Prop
  | .fin _ m e => m < 2 ^ 53 ∧ -1074 ≤ e ∧ e ≤ 971
  | _ => False

/-- The value of the operand `f` as a rational number. -/
def bitsToRat (b : Bits64) : ℚ := (F64.ofBits b).toRat

/-- `x = f × 2^28 / ref` as a real number (R86). -/
def idealFrequency (f ref : Bits64) : ℚ := bitsToRat f * 2 ^ 28 / bitsToRat ref

/-! ## What an instruction sends -/

/-- The seven operations of the host (spec/30_encoding.md R56), as against the five register writes. -/
def isCommand : Instr → Bool
  | .ctrlWrite _ => false
  | .freq0Write _ => false
  | .freq1Write _ => false
  | .phase0Write _ => false
  | .phase1Write _ => false
  | .init _ => true
  | .reset _ => true
  | .setModeOff => true
  | .setModeSine => true
  | .setModeTriangle => true
  | .setModeSquareHalf => true
  | .setModeSquareFull => true
  | .setAFreq _ => true
  | .setAPhase _ => true
  | .setFreq _ _ => true
  | .setPhase _ _ => true

/-- How many register writes an instruction makes (spec/70_reset_and_hazards.md R184). -/
def writeCount : Instr → Nat
  | .init _ => 11
  | .reset hold => if hold then 1 else 2
  | .setModeOff => 1
  | .setModeSine => 1
  | .setModeTriangle => 1
  | .setModeSquareHalf => 1
  | .setModeSquareFull => 1
  | .setAFreq _ => 1
  | .setAPhase _ => 1
  | .setFreq _ _ => 3
  | .setPhase _ _ => 1
  | .ctrlWrite _ => 1
  | .freq0Write _ => 1
  | .freq1Write _ => 1
  | .phase0Write _ => 1
  | .phase1Write _ => 1

/-- The operations of spec/41_control_ops.md, which send control words only (R111). -/
def isControlOp : Instr → Bool
  | .reset _ => true
  | .setModeOff => true
  | .setModeSine => true
  | .setModeTriangle => true
  | .setModeSquareHalf => true
  | .setModeSquareFull => true
  | .setAFreq _ => true
  | .setAPhase _ => true
  | .init _ => false
  | .setFreq _ _ => false
  | .setPhase _ _ => false
  | .ctrlWrite _ => false
  | .freq0Write _ => false
  | .freq1Write _ => false
  | .phase0Write _ => false
  | .phase1Write _ => false

/-- The control words among the words of `TX`: those whose bits 15:14 are 00 (spec/20_memory.md R30). -/
def controlWords (ws : List RegWord) : List RegWord := ws.filter fun w => w.extractLsb' 14 2 == 0#2

/-- The state with the cached values of the two channels exchanged (spec/42_data_ops.md R123). -/
def State.swapChannels (s : State) : State := { s with ch0 := s.ch1, ch1 := s.ch0 }

/-! ## Invariants of a run -/

/-- No register write is waiting: the sequencer is idle between commands (spec/10_state.md R26). -/
def Idle (s : State) : Prop := s.writes = []

/-- `TX` is made of whole frames: "every `Select` is followed by exactly one `Transmit` and then `Deselect`"
(spec/20_memory.md R33). -/
def Framed (s : State) : Prop := s.tx = frames (words s.tx)

/-- The values of the four bits `SLEEP1`, `SLEEP12`, `OPBITEN`, `MODE` (mask 0x00E2) in each mode (R13, R102). -/
def modePattern : Mode → RegWord
  | .off => 0x00C0#16
  | .sine => 0x0000#16
  | .triangle => 0x0002#16
  | .squareHalf => 0x0020#16
  | .squareFull => 0x0020#16

/-- The values `CTL` can have when the last SETMODE was `m` (R13): the unnamed bits and `HLB` are 0, `B28` is 1, the
four waveform and sleep bits are those of the mode, and `DIV2` is 1 after square_half and 0 after square_full. -/
def LegalControl (w : RegWord) (m : Mode) : Prop :=
  w &&& 0xD215#16 = 0#16 ∧ w &&& 0x2000#16 = 0x2000#16 ∧ w &&& 0x00E2#16 = modePattern m ∧
  (m = .squareHalf → w.getLsbD 3 = true) ∧ (m = .squareFull → w.getLsbD 3 = false)

/-- Once initialised, `CTL` has a value it can have in the present mode (R13). -/
def CtlLegal (s : State) : Prop := s.inited = true → LegalControl s.ctl s.activeMode

/-- The mirror invariant (R14): once initialised, `CTL` equals the last control word in `TX`. -/
def MirrorExact (s : State) : Prop :=
  s.inited = true → (controlWords (words s.tx)).getLast? = some s.ctl

/-- The picture replayed from `TX` shows what the controller caches: its control register holds the fields of `CTL`
(R55; the other bits of `CTL` are `MirrorExact`'s), and each channel that has been written holds the cached words. -/
def PictureAgrees (s : State) : Prop :=
  (s.inited = true → (replay (words s.tx)).control = some (controlFields s.ctl)) ∧
  ∀ c, ((s.chan c).freqWritten = true → ((replay (words s.tx)).chan c).freq = some (s.chan c).freqw) ∧
    ((s.chan c).phaseWritten = true → ((replay (words s.tx)).chan c).phase = some (s.chan c).phasew)

/-- Before the first INIT nothing has been sent and nothing has a value (spec/70_reset_and_hazards.md R170); after it
the clock is in the contract and channel 0 has been written (spec/10_state.md R23). -/
def LifecycleOk (s : State) : Prop :=
  (s.inited = false → s.tx = [] ∧ ∀ c, (s.chan c).freqWritten = false ∧ (s.chan c).phaseWritten = false) ∧
  (s.inited = true → validReferenceClock s.refclk = true ∧ s.ch0.freqWritten = true ∧ s.ch0.phaseWritten = true)

/-- `PHASEW[c]` is the word of `REQP[c]` in each channel that has been written (R18). -/
def PhaseCacheOk (s : State) : Prop :=
  ∀ c, (s.chan c).phaseWritten = true → (s.chan c).phasew = phaseWord (s.chan c).reqp

/-- `FREQW[c]` is the word of `REQF[c]` at the present clock, unless that word is the open parameter (R18). -/
def FreqCacheOk (s : State) (c : Chan) : Prop :=
  (s.chan c).freqWritten = true →
    ∀ w, frequencyWord? (s.chan c).reqf s.refclk = some w → (s.chan c).freqw = w

end Sys2Proof.Machine
end

