-- ==== Sys2Proof/Certificates/Slice0/Obligations.lean ====
section
/-! DEFINITION. The statements for the provers. -/

open Sys2Proof Sys2Proof.Machine

/-! ## Reset and the step -/

/-- R170: at power-on `INITED = 0`, no other element has a value (every read of one is free), `TX` is empty and
chip-select is deasserted. The spec's own decisions D16 and D18; the free values are log entries 2 and 3. -/
def Obligations.ResetIsPowerOn : Prop :=
  State.reset.introspectInited = false ∧ State.reset.tx = [] ∧ chipSelected State.reset.tx = false ∧
  ∀ n : Nat,
    State.reset.introspectCtl n = Config.readCtl n ∧
    State.reset.introspectRefclk n = Config.readRefclk n ∧
    State.reset.introspectMode n = (Config.readMode n).code ∧
    ∀ c : Chan,
      State.reset.introspectReqf c n = Config.readReqf n ∧
      State.reset.introspectFreqw c n = Config.readFreqw n ∧
      State.reset.introspectReqp c n = Config.readReqp n ∧
      State.reset.introspectPhasew c n = Config.readPhasew n

/-- A step runs the decoded instruction on the state from which its word has been taken; with no word to take the
controller stays as it is. The order (a waiting register write before the host's next command) is the model's choice:
log entries 4 and 5. -/
def Obligations.StepRunsTheFetchedInstruction : Prop :=
  ∀ s : State,
    (∀ c cs i, s.writes = [] → s.commands = c :: cs → decodeCommand c = .ok i →
      step s = exec i { s with commands := cs }) ∧
    (∀ w ws i, s.writes = w :: ws → decodeWrite w = .ok i → step s = exec i { s with writes := ws }) ∧
    (s.writes = [] → s.commands = [] → step s = .next s)

/-- R65: a 72-bit word that matches no row of R59 is refused with `invalid_encoding` (the spec's own
decision D20). -/
def Obligations.UnmatchedCommandWordIsRefused : Prop :=
  ∀ (s : State) (c : Command) (cs : List Command), s.writes = [] → s.commands = c :: cs →
    (∀ row ∈ commandRows, c &&& row.1 ≠ row.2) → step s = .refused .invalidEncoding

/-- R153, R154: the only refusals, each with its cause; at most one cause applies, the encoding being checked first.
The reasons are the spec's own decision D27; `neverEmitted` is the model's (log entry 5). -/
def Obligations.StepRefusesOnlyForItsReasons : Prop :=
  ∀ (s : State) (r : Refusal), step s = .refused r →
    (r = .invalidEncoding ∧ s.writes = [] ∧ ∃ c cs, s.commands = c :: cs ∧
      ∀ row ∈ commandRows, c &&& row.1 ≠ row.2) ∨
    (r = .notInitialised ∧ s.inited = false ∧ s.writes = [] ∧ ∃ c cs i, s.commands = c :: cs ∧
      decodeCommand c = .ok i ∧ ∀ ref, i ≠ .init ref) ∨
    (r = .badReferenceClock ∧ s.writes = [] ∧ ∃ c cs ref, s.commands = c :: cs ∧
      decodeCommand c = .ok (.init ref) ∧
      (ref.getLsbD 63 = true ∨ ref.extractLsb' 52 11 = 2047#11 ∨ ref = 0#64)) ∨
    (r = .neverEmitted ∧ ∃ w ws, s.writes = w :: ws ∧ ∀ row ∈ writeRows, w &&& row.1 ≠ row.2)

/-- R100 item 4: every command but INIT is refused with `not_initialised` while `INITED` is 0 (the
spec's own decision D16). -/
def Obligations.CommandBeforeInitIsRefused : Prop :=
  ∀ (i : Instr) (s : State), isCommand i = true → (∀ ref, i ≠ .init ref) → s.inited = false →
    exec i s = .refused .notInitialised

/-! ## Encodings -/

/-- Decoding the encoding of a well-formed instruction gives it back, with every operand at every value. The form
of a command word is the spec's own decision D2; that emitted words are instructions is log entry 5. -/
def Obligations.DecodeOfEncodeIsTheInstruction : Prop :=
  ∀ i : Instr, i.WellFormed → decode (encode i) = .ok i

/-- A word that decodes is the encoding of what it decodes to, and what it decodes to is well-formed: each word has
one meaning (the spec's own decision D2; log entry 5). -/
def Obligations.EncodeOfDecodeIsTheWord : Prop :=
  ∀ (cw : CodeWord) (i : Instr), decode cw = .ok i → i.WellFormed ∧ encode i = cw

/-- R59: `C` is the command of a row exactly when `C & mask = match`, with the operands in the bits of R58; at most
one row matches (the spec's own decision D2). -/
def Obligations.CommandRowsDecideTheCommand : Prop :=
  ∀ c : Command,
    let chan : Chan := if c.getLsbD 64 then .ch1 else .ch0
    (c &&& 0xFF0000000000000000#72 = 0x000000000000000000#72 ↔
      decodeCommand c = .ok (.init (c.extractLsb' 0 64))) ∧
    (c &&& 0xFEFFFFFFFFFFFFFFFF#72 = 0x100000000000000000#72 ↔ decodeCommand c = .ok (.reset (c.getLsbD 64))) ∧
    (c &&& 0xFFFFFFFFFFFFFFFFFF#72 = 0x200000000000000000#72 ↔ decodeCommand c = .ok .setModeOff) ∧
    (c &&& 0xFFFFFFFFFFFFFFFFFF#72 = 0x210000000000000000#72 ↔ decodeCommand c = .ok .setModeSine) ∧
    (c &&& 0xFFFFFFFFFFFFFFFFFF#72 = 0x220000000000000000#72 ↔ decodeCommand c = .ok .setModeTriangle) ∧
    (c &&& 0xFFFFFFFFFFFFFFFFFF#72 = 0x230000000000000000#72 ↔ decodeCommand c = .ok .setModeSquareHalf) ∧
    (c &&& 0xFFFFFFFFFFFFFFFFFF#72 = 0x240000000000000000#72 ↔ decodeCommand c = .ok .setModeSquareFull) ∧
    (c &&& 0xFEFFFFFFFFFFFFFFFF#72 = 0x300000000000000000#72 ↔ decodeCommand c = .ok (.setAFreq chan)) ∧
    (c &&& 0xFEFFFFFFFFFFFFFFFF#72 = 0x400000000000000000#72 ↔ decodeCommand c = .ok (.setAPhase chan)) ∧
    (c &&& 0xFE0000000000000000#72 = 0x500000000000000000#72 ↔
      decodeCommand c = .ok (.setFreq chan (c.extractLsb' 0 64))) ∧
    (c &&& 0xFEFFFFFFFFFFFF0000#72 = 0x600000000000000000#72 ↔
      decodeCommand c = .ok (.setPhase chan (c.extractLsb' 0 16))) ∧
    (commandRows.filter fun row => matchesRow row.1 row.2 c).length ≤ 1

/-- The five W16 rows of the opcode table (R51 to R53) decide a register word in the same way, with its fields.
That a register word is decoded as an instruction is the model's choice (log entry 5). -/
def Obligations.WriteRowsDecideTheRegisterWrite : Prop :=
  ∀ w : RegWord,
    (w &&& 0xF215#16 = 0x2000#16 ↔ decodeWrite w = .ok (.ctrlWrite w)) ∧
    (w &&& 0xC000#16 = 0x4000#16 ↔ decodeWrite w = .ok (.freq0Write (w.extractLsb' 0 14))) ∧
    (w &&& 0xC000#16 = 0x8000#16 ↔ decodeWrite w = .ok (.freq1Write (w.extractLsb' 0 14))) ∧
    (w &&& 0xF000#16 = 0xC000#16 ↔ decodeWrite w = .ok (.phase0Write (w.extractLsb' 0 12))) ∧
    (w &&& 0xF000#16 = 0xE000#16 ↔ decodeWrite w = .ok (.phase1Write (w.extractLsb' 0 12))) ∧
    ((∃ i, decodeWrite w = .ok i) ↔ ∃ row ∈ writeRows, w &&& row.1 = row.2)

/-- Words written out from R57, R58 and R66, one for each operation, decode to what they stand for (the
spec's own decisions D2 and D3; log entry 5). -/
def Obligations.WrittenOutWordsDecode : Prop :=
  decodeTableWord 72 0x004177D78400000000 = some (.init 0x4177D78400000000#64) ∧
  decodeTableWord 72 0x110000000000000000 = some (.reset true) ∧
  decodeTableWord 72 0x230000000000000000 = some .setModeSquareHalf ∧
  decodeTableWord 72 0x310000000000000000 = some (.setAFreq .ch1) ∧
  decodeTableWord 72 0x400000000000000000 = some (.setAPhase .ch0) ∧
  decodeTableWord 72 0x51412E848000000000 = some (.setFreq .ch1 0x412E848000000000#64) ∧
  decodeTableWord 72 0x610000000000000384 = some (.setPhase .ch1 900#16) ∧
  decodeTableWord 72 0x250000000000000000 = none ∧
  decodeTableWord 16 0x2C02 = some (.ctrlWrite 0x2C02#16) ∧
  decodeTableWord 16 0x970A = some (.freq1Write 0x170A#14)

/-- R52, R53, R54: the tag of a data word names its channel, the payload is the half or the phase word, bit 12 of a
phase word is 0, and the two halves restore the frequency word. -/
def Obligations.DataWordsCarryTagAndPayload : Prop :=
  (∀ (c : Chan) (h : FreqHalf), dest (freqDataWord c h) = .freq c ∧ (freqDataWord c h).extractLsb' 0 14 = h) ∧
  (∀ (c : Chan) (p : PhaseWord), dest (phaseDataWord c p) = .phase c ∧
    (phaseDataWord c p).extractLsb' 0 12 = p ∧ (phaseDataWord c p).getLsbD 12 = false) ∧
  ∀ fw : FreqWord, ((hi14 fw).setWidth 28 <<< 14) ||| (lo14 fw).setWidth 28 = fw

/-! ## What each instruction does -/

/-- R101: RESET sets bit 8 and sends the control word; with hold = 0 it then clears bit 8 and sends it again. Nothing
else changes. -/
def Obligations.ResetCommandPulsesTheResetBit : Prop :=
  ∀ s : State, s.inited = true →
    exec (.reset true) s =
      .next { s with ctl := s.ctl ||| 0x0100#16, tx := s.tx ++ frames [s.ctl ||| 0x0100#16] } ∧
    exec (.reset false) s =
      .next { s with
        ctl := s.ctl &&& ~~~0x0100#16
        tx := s.tx ++ frames [s.ctl ||| 0x0100#16, s.ctl &&& ~~~0x0100#16] }

/-- R103 to R106: SETMODE off, sine, triangle and square_half set `CTL` by their row of the mode table, record the mode
and send the control word once. Nothing else changes. -/
def Obligations.SetModeFollowsTheModeTable : Prop :=
  ∀ s : State, s.inited = true →
    exec .setModeOff s =
      .next { s with
        ctl := (s.ctl &&& ~~~0x0022#16) ||| 0x00C0#16, activeMode := .off
        tx := s.tx ++ frames [(s.ctl &&& ~~~0x0022#16) ||| 0x00C0#16] } ∧
    exec .setModeSine s =
      .next { s with
        ctl := s.ctl &&& ~~~0x00E2#16, activeMode := .sine
        tx := s.tx ++ frames [s.ctl &&& ~~~0x00E2#16] } ∧
    exec .setModeTriangle s =
      .next { s with
        ctl := (s.ctl &&& ~~~0x00E0#16) ||| 0x0002#16, activeMode := .triangle
        tx := s.tx ++ frames [(s.ctl &&& ~~~0x00E0#16) ||| 0x0002#16] } ∧
    exec .setModeSquareHalf s =
      .next { s with
        ctl := (s.ctl &&& ~~~0x00C2#16) ||| 0x0028#16, activeMode := .squareHalf
        tx := s.tx ++ frames [(s.ctl &&& ~~~0x00C2#16) ||| 0x0028#16] }

/-- R107: SETMODE square_full sets `OPBITEN`, clears the other four waveform and sleep bits, `DIV2` among them, records
the mode and sends the control word once. Nothing else changes. That `DIV2` is cleared is the spec's own decision D14
(spec/90_conflicts.md C4). -/
def Obligations.SquareFullClearsDivTwo : Prop :=
  ∀ s : State, s.inited = true →
    exec .setModeSquareFull s =
      .next { s with
        ctl := (s.ctl &&& ~~~0x00CA#16) ||| 0x0020#16, activeMode := .squareFull
        tx := s.tx ++ frames [(s.ctl &&& ~~~0x00CA#16) ||| 0x0020#16] }

/-- R108, R109: channel 1 sets the select bit and channel 0 clears it, and the control word is sent once. Nothing else
changes. The polarity is the spec's own decision D13. -/
def Obligations.SelectSetsOrClearsItsBit : Prop :=
  ∀ s : State, s.inited = true →
    exec (.setAFreq .ch1) s =
      .next { s with ctl := s.ctl ||| 0x0800#16, tx := s.tx ++ frames [s.ctl ||| 0x0800#16] } ∧
    exec (.setAFreq .ch0) s =
      .next { s with ctl := s.ctl &&& ~~~0x0800#16, tx := s.tx ++ frames [s.ctl &&& ~~~0x0800#16] } ∧
    exec (.setAPhase .ch1) s =
      .next { s with ctl := s.ctl ||| 0x0400#16, tx := s.tx ++ frames [s.ctl ||| 0x0400#16] } ∧
    exec (.setAPhase .ch0) s =
      .next { s with ctl := s.ctl &&& ~~~0x0400#16, tx := s.tx ++ frames [s.ctl &&& ~~~0x0400#16] }

/-- R120: SETFREQ stores the request and its word in the named channel, forces `B28`, and sends the control word, the
low half and the high half. Nothing else changes but the number of free values drawn, which goes up by one exactly
when the word is the open parameter (log entry 1). -/
def Obligations.SetFreqStoresAndSendsThreeWords : Prop :=
  ∀ (s : State) (f : Bits64) (fw : FreqWord) (d : Nat), s.inited = true →
    (frequencyWord? f s.refclk = some fw ∧ d = s.draws ∨
      frequencyWord? f s.refclk = none ∧ fw = Config.freqNonfiniteWord s.draws ∧ d = s.draws + 1) →
    exec (.setFreq .ch0 f) s =
      .next { s with
        ch0 := { s.ch0 with reqf := f, freqw := fw, freqWritten := true }
        ctl := s.ctl ||| 0x2000#16
        draws := d
        tx := s.tx ++ frames [s.ctl ||| 0x2000#16, 0x4000#16 ||| (fw &&& 0x3FFF#28).setWidth 16,
          0x4000#16 ||| ((fw >>> 14) &&& 0x3FFF#28).setWidth 16] } ∧
    exec (.setFreq .ch1 f) s =
      .next { s with
        ch1 := { s.ch1 with reqf := f, freqw := fw, freqWritten := true }
        ctl := s.ctl ||| 0x2000#16
        draws := d
        tx := s.tx ++ frames [s.ctl ||| 0x2000#16, 0x8000#16 ||| (fw &&& 0x3FFF#28).setWidth 16,
          0x8000#16 ||| ((fw >>> 14) &&& 0x3FFF#28).setWidth 16] }

/-- R122: SETPHASE stores the request and its word in the named channel and sends one tagged phase word; `CTL` is
neither changed nor sent. Nothing else changes. The word's formula is the spec's own decision D10. -/
def Obligations.SetPhaseStoresAndSendsOneWord : Prop :=
  ∀ (s : State) (t : Tenths) (pw : PhaseWord), s.inited = true →
    pw.toNat = (512 * t.toNat + 225) / 450 % 4096 →
    exec (.setPhase .ch0 t) s =
      .next { s with
        ch0 := { s.ch0 with reqp := t, phasew := pw, phaseWritten := true }
        tx := s.tx ++ frames [0xC000#16 ||| pw.setWidth 16] } ∧
    exec (.setPhase .ch1 t) s =
      .next { s with
        ch1 := { s.ch1 with reqp := t, phasew := pw, phaseWritten := true }
        tx := s.tx ++ frames [0xE000#16 ||| pw.setWidth 16] }

/-- R141, R142, R143: for every `ref` finite and greater than zero, and from any state, INIT sends the eleven words of
R141 and leaves the state of R142; channel 1 keeps what it held. The spec's own decisions D5, D12, D15 and D17; the
count of draws is log entry 1. -/
def Obligations.InitSendsElevenWordsAndSetsTheState : Prop :=
  ∀ (s : State) (ref : Bits64) (fw : FreqWord) (d : Nat),
    ref.getLsbD 63 = false → ref.extractLsb' 52 11 ≠ 2047#11 → ref ≠ 0#64 →
    (frequencyWord? 0x408F400000000000#64 ref = some fw ∧ d = s.draws ∨
      frequencyWord? 0x408F400000000000#64 ref = none ∧ fw = Config.freqNonfiniteWord s.draws ∧
        d = s.draws + 1) →
    exec (.init ref) s =
      .next { s with
        inited := true
        refclk := ref
        ctl := 0x2000#16
        activeMode := .sine
        ch0 := { reqf := 0x408F400000000000#64, freqw := fw, reqp := 0#16, phasew := 0#12,
                 freqWritten := true, phaseWritten := true }
        draws := d
        tx := s.tx ++ frames [0x2000#16, 0x2100#16, 0x2100#16, 0x4000#16 ||| (fw &&& 0x3FFF#28).setWidth 16,
          0x4000#16 ||| ((fw >>> 14) &&& 0x3FFF#28).setWidth 16, 0xC000#16, 0x2100#16, 0x2000#16, 0x2000#16,
          0x2000#16, 0x2000#16] }

/-- R144: INIT with `ref` zero, negative, infinite or NaN is refused with `bad_reference_clock` (the spec's own
decision D5). -/
def Obligations.InitRefusesABadReferenceClock : Prop :=
  ∀ (s : State) (ref : Bits64),
    (ref = 0#64 ∨ ref.getLsbD 63 = true ∨ ref.extractLsb' 52 11 = 2047#11) →
    exec (.init ref) s = .refused .badReferenceClock

/-- R31, R32 for the five W16 rows: the register write of a word appends one frame, most significant byte first, and
changes nothing else. That the model gives the emitted words an instruction each is its own choice: log entry 5. -/
def Obligations.RegisterWriteSendsOneFrame : Prop :=
  ∀ s : State,
    (∀ w : RegWord, exec (.ctrlWrite w) s =
      .next { s with tx := s.tx ++ [.select, .transmit (w.extractLsb' 8 8) (w.extractLsb' 0 8), .deselect] }) ∧
    (∀ (h : FreqHalf) (w : RegWord), w = 0x4000#16 ||| h.setWidth 16 → exec (.freq0Write h) s =
      .next { s with tx := s.tx ++ [.select, .transmit (w.extractLsb' 8 8) (w.extractLsb' 0 8), .deselect] }) ∧
    (∀ (h : FreqHalf) (w : RegWord), w = 0x8000#16 ||| h.setWidth 16 → exec (.freq1Write h) s =
      .next { s with tx := s.tx ++ [.select, .transmit (w.extractLsb' 8 8) (w.extractLsb' 0 8), .deselect] }) ∧
    (∀ (p : PhaseWord) (w : RegWord), w = 0xC000#16 ||| p.setWidth 16 → exec (.phase0Write p) s =
      .next { s with tx := s.tx ++ [.select, .transmit (w.extractLsb' 8 8) (w.extractLsb' 0 8), .deselect] }) ∧
    (∀ (p : PhaseWord) (w : RegWord), w = 0xE000#16 ||| p.setWidth 16 → exec (.phase1Write p) s =
      .next { s with tx := s.tx ++ [.select, .transmit (w.extractLsb' 8 8) (w.extractLsb' 0 8), .deselect] })

/-- R23, R24: after the first INIT channel 0 and the control elements read as the values of R23, and channel 1's four
elements read as free values (the spec's own decision D18; log entry 3). -/
def Obligations.FirstInitLeavesChannelOneUnwritten : Prop :=
  ∀ (ref : Bits64) (t : State), exec (.init ref) State.reset = .next t → ∀ n : Nat,
    t.introspectInited = true ∧ t.introspectCtl n = 0x2000#16 ∧ t.introspectRefclk n = ref ∧
    t.introspectMode n = 1#3 ∧ t.introspectReqf .ch0 n = 0x408F400000000000#64 ∧
    (∀ w, frequencyWord? 0x408F400000000000#64 ref = some w → t.introspectFreqw .ch0 n = w) ∧
    t.introspectReqp .ch0 n = 0#16 ∧ t.introspectPhasew .ch0 n = 0#12 ∧
    t.introspectReqf .ch1 n = Config.readReqf n ∧ t.introspectFreqw .ch1 n = Config.readFreqw n ∧
    t.introspectReqp .ch1 n = Config.readReqp n ∧ t.introspectPhasew .ch1 n = Config.readPhasew n

/-! ## Rules over all instructions -/

/-- R121: SETFREQ's three words are control with `B28` set, low half, high half, both halves tagged for its channel and
together the stored word. `CtlLegal` rules out mirrors whose tag bits no run sets. -/
def Obligations.SetFreqOrderIsControlLowHigh : Prop :=
  ∀ (c : Chan) (f : Bits64) (s : State), s.inited = true → CtlLegal s →
    ∃ t a l h, exec (.setFreq c f) s = .next t ∧ words t.tx = words s.tx ++ [a, l, h] ∧
      dest a = .control ∧ a.getLsbD 13 = true ∧ a = t.ctl ∧ dest l = .freq c ∧ dest h = .freq c ∧
      (h.extractLsb' 0 14 : FreqHalf) ++ (l.extractLsb' 0 14 : FreqHalf) = (t.chan c).freqw

/-- R184 for the commands: every instruction that completes appends a fixed number of whole register writes to `TX`.
That each emitted word is an instruction too, which sends one word, is the model's choice (log entry 5). -/
def Obligations.EveryInstructionSendsAFixedNumberOfWords : Prop :=
  ∀ (i : Instr) (s t : State), exec i s = .next t →
    ∃ ws, t.tx = s.tx ++ frames ws ∧ ws.length = writeCount i

/-- R51, R55: every word a command sends matches a W16 row of the opcode table, so no reserved bit is ever set (R13,
which the spec derives). -/
def Obligations.EveryEmittedWordMatchesATableRow : Prop :=
  ∀ (i : Instr) (s t : State), isCommand i = true → CtlLegal s → exec i s = .next t →
    ∃ ws, words t.tx = words s.tx ++ ws ∧ ∀ w ∈ ws, ∃ row ∈ writeRows, w &&& row.1 = row.2

/-- R111: the control-register operations send control words only, and the last word sent is the `CTL` they leave
(which the spec derives). -/
def Obligations.ControlOperationsSendOnlyControlWords : Prop :=
  ∀ (i : Instr) (s t : State), isControlOp i = true → CtlLegal s → exec i s = .next t →
    ∃ ws, words t.tx = words s.tx ++ ws ∧ (∀ w ∈ ws, dest w = .control) ∧ ws.getLast? = some t.ctl

/-- R41: a command issued again appends the same words again and leaves the state as the first issue left it, except
where the word of a non-finite frequency is drawn anew (the spec's own decision D8; log entry 1). -/
def Obligations.RepeatedCommandSendsTheSameWords : Prop :=
  ∀ (i : Instr) (s t : State), isCommand i = true → exec i s = .next t → t.draws = s.draws →
    ∃ ws, t.tx = s.tx ++ frames ws ∧ exec i t = .next { t with tx := t.tx ++ frames ws }

/-- R12: which operation sets and which clears each bit of `CTL`, by any instruction but INIT; INIT leaves 0x2000. The
polarity of the selects and the clearing of `DIV2` are the spec's own decisions D13 and D14. -/
def Obligations.ControlBitsHaveTheirWriters : Prop :=
  ∀ (i : Instr) (s t : State), exec i s = .next t →
    (∀ ref, i = .init ref → t.ctl = 0x2000#16) ∧
    ((∀ ref, i ≠ .init ref) →
      (s.ctl ^^^ t.ctl) &&& 0xD215#16 = 0#16 ∧
      (t.ctl.getLsbD 13 ≠ s.ctl.getLsbD 13 → t.ctl.getLsbD 13 = true ∧ ∃ c f, i = .setFreq c f) ∧
      (t.ctl.getLsbD 11 ≠ s.ctl.getLsbD 11 → i = .setAFreq (if t.ctl.getLsbD 11 then .ch1 else .ch0)) ∧
      (t.ctl.getLsbD 10 ≠ s.ctl.getLsbD 10 → i = .setAPhase (if t.ctl.getLsbD 10 then .ch1 else .ch0)) ∧
      (t.ctl.getLsbD 8 ≠ s.ctl.getLsbD 8 → i = .reset (t.ctl.getLsbD 8)) ∧
      (t.ctl.getLsbD 7 ≠ s.ctl.getLsbD 7 ∨ t.ctl.getLsbD 6 ≠ s.ctl.getLsbD 6 →
        t.ctl.getLsbD 7 = t.ctl.getLsbD 6 ∧
        if t.ctl.getLsbD 7 then i = .setModeOff
        else i ∈ [.setModeSine, .setModeTriangle, .setModeSquareHalf, .setModeSquareFull]) ∧
      (t.ctl.getLsbD 5 ≠ s.ctl.getLsbD 5 →
        if t.ctl.getLsbD 5 then i ∈ [.setModeSquareHalf, .setModeSquareFull]
        else i ∈ [.setModeOff, .setModeSine, .setModeTriangle]) ∧
      (t.ctl.getLsbD 3 ≠ s.ctl.getLsbD 3 →
        if t.ctl.getLsbD 3 then i = .setModeSquareHalf else i = .setModeSquareFull) ∧
      (t.ctl.getLsbD 1 ≠ s.ctl.getLsbD 1 →
        if t.ctl.getLsbD 1 then i = .setModeTriangle
        else i ∈ [.setModeOff, .setModeSine, .setModeSquareHalf, .setModeSquareFull]))

/-- R10 "written by": which instruction can change each element of the state, and `INITED` never falls (R22; the
spec's own decision D16). -/
def Obligations.StateElementsHaveTheirWriters : Prop :=
  ∀ (i : Instr) (s t : State), exec i s = .next t →
    (s.inited = true → t.inited = true) ∧
    (t.inited ≠ s.inited → ∃ ref, i = .init ref) ∧
    (t.refclk ≠ s.refclk → i = .init t.refclk) ∧
    (t.activeMode ≠ s.activeMode → (∃ ref, i = .init ref) ∨
      i ∈ [.setModeOff, .setModeSine, .setModeTriangle, .setModeSquareHalf, .setModeSquareFull]) ∧
    (∀ c, (t.chan c).reqf ≠ (s.chan c).reqf ∨ (t.chan c).freqw ≠ (s.chan c).freqw →
      i = .setFreq c (t.chan c).reqf ∨ c = .ch0 ∧ ∃ ref, i = .init ref) ∧
    (∀ c, (t.chan c).reqp ≠ (s.chan c).reqp ∨ (t.chan c).phasew ≠ (s.chan c).phasew →
      i = .setPhase c (t.chan c).reqp ∨ c = .ch0 ∧ ∃ ref, i = .init ref) ∧
    t.commands = s.commands ∧ t.writes = s.writes

/-- R180, R181: a held reset and `DIV2` stay through every instruction but those that write them, and every control
word sent meanwhile carries the bit (R181 the spec derives). -/
def Obligations.HeldResetAndDivTwoAreSticky : Prop :=
  ∀ (i : Instr) (s t : State) (ws : List RegWord), isCommand i = true → (∀ ref, i ≠ .init ref) →
    exec i s = .next t → words t.tx = words s.tx ++ ws →
    (s.ctl.getLsbD 8 = true → i ≠ .reset false →
      t.ctl.getLsbD 8 = true ∧ ∀ w ∈ ws, dest w = .control → w.getLsbD 8 = true) ∧
    (s.ctl.getLsbD 3 = true → i ≠ .setModeSquareFull →
      t.ctl.getLsbD 3 = true ∧ ∀ w ∈ ws, dest w = .control → w.getLsbD 3 = true)

/-- R19: an operation that does not load a channel neither reads nor writes that channel's cached values: running it
with other values there gives the same outcome with those values there. -/
def Obligations.OperationsIgnoreTheOtherChannel : Prop :=
  ∀ (i : Instr) (c : Chan) (v : Channel) (s t : State),
    (∀ f, i ≠ .setFreq c f) → (∀ x, i ≠ .setPhase c x) → (c = .ch0 → ∀ ref, i ≠ .init ref) →
    exec i s = .next t → exec i (s.setChan c v) = .next (t.setChan c v)

/-- R123: SETFREQ and SETPHASE on channel 1 do what they do on channel 0, with index 1 in place of 0 and the data
words' tag bits changed. -/
def Obligations.ChannelOneIsChannelZeroButForTheTag : Prop :=
  ∀ s : State, s.inited = true →
    (∀ f : Bits64, ∃ t u : State, ∃ (a : RegWord) (l h : FreqHalf),
      exec (.setFreq .ch0 f) s = .next t ∧ exec (.setFreq .ch1 f) s.swapChannels = .next u ∧
      words t.tx = words s.tx ++ [a, 0x4000#16 ||| l.setWidth 16, 0x4000#16 ||| h.setWidth 16] ∧
      words u.tx = words s.tx ++ [a, 0x8000#16 ||| l.setWidth 16, 0x8000#16 ||| h.setWidth 16] ∧
      { u with tx := t.tx } = t.swapChannels) ∧
    (∀ x : Tenths, ∃ t u : State, ∃ w : RegWord,
      exec (.setPhase .ch0 x) s = .next t ∧ exec (.setPhase .ch1 x) s.swapChannels = .next u ∧
      w.getLsbD 13 = false ∧ words t.tx = words s.tx ++ [w] ∧ words u.tx = words s.tx ++ [w ||| 0x2000#16] ∧
      { u with tx := t.tx } = t.swapChannels)

/-! ## Invariants every step keeps -/

/-- Every invariant below holds at power-on. -/
def Obligations.InvariantsHoldAtReset : Prop :=
  Idle State.reset ∧ Framed State.reset ∧ CtlLegal State.reset ∧ MirrorExact State.reset ∧
  PictureAgrees State.reset ∧ LifecycleOk State.reset ∧ PhaseCacheOk State.reset ∧
  ∀ c, FreqCacheOk State.reset c

/-- R33: `TX` stays made of whole frames, so chip-select is deasserted after every step (R26). -/
def Obligations.StepKeepsTxFramed : Prop :=
  ∀ s t : State, Framed s → step s = .next t → Framed t ∧ chipSelected t.tx = false

/-- R37: `TX` only grows: a step never drops, merges or reorders what has been sent. -/
def Obligations.StepOnlyAppendsToTx : Prop :=
  ∀ s t : State, step s = .next t → s.tx <+: t.tx

/-- R13: every step keeps `CTL` among its reachable values (which the spec derives). -/
def Obligations.StepKeepsCtlLegal : Prop :=
  ∀ s t : State, CtlLegal s → step s = .next t → CtlLegal t

/-- R13: each value and mode that `LegalControl` admits is reached, from any state, by at most six commands: nothing
narrower is an invariant (which the spec derives). -/
def Obligations.EveryLegalControlWordIsReached : Prop :=
  ∀ (s : State) (w : RegWord) (m : Mode), LegalControl w m →
    ∃ (cs : List Command) (t : State), cs.length ≤ 6 ∧
      Host.Core.run Sys2Proof.core cs.length { s with commands := cs, writes := [] } = .next t ∧
      t.ctl = w ∧ t.activeMode = m

/-- R14: whenever the controller is idle and initialised, `CTL` equals the last control word in `TX`. That the
operations keep this the spec derives. -/
def Obligations.StepKeepsTheMirrorExact : Prop :=
  ∀ s t : State, Idle s → CtlLegal s → MirrorExact s → step s = .next t → Idle t ∧ MirrorExact t

/-- R36, R52, R55: the picture of the chip replayed from `TX` keeps showing the fields of the cached control word, the
frequency words and the phase words. The picture is the model's own reading of `TX` (log entry 7). -/
def Obligations.StepKeepsTheChipPictureInAgreement : Prop :=
  ∀ s t : State, Idle s → CtlLegal s → PictureAgrees s → step s = .next t → Idle t ∧ PictureAgrees t

/-- R170, R22, R23: nothing is sent or written before the first INIT, and after it the clock is in the contract and
channel 0 has values (the spec's own decisions D5, D16 and D18). -/
def Obligations.StepKeepsTheLifecycle : Prop :=
  ∀ s t : State, Idle s → LifecycleOk s → step s = .next t → Idle t ∧ LifecycleOk t

/-- R18: the cached phase words stay the words of the requested phases; the cached frequency words stay the words of
the requested frequencies, on channel 0 through every step and on channel 1 through every instruction but INIT;
SETFREQ on channel 1 makes it so whatever was there. The cached words are the reduced ones (the spec's own decision
D11). -/
def Obligations.CachedWordsStayTheWordsOfTheRequests : Prop :=
  (∀ s t : State, PhaseCacheOk s → step s = .next t → PhaseCacheOk t) ∧
  (∀ s t : State, FreqCacheOk s .ch0 → step s = .next t → FreqCacheOk t .ch0) ∧
  (∀ (i : Instr) (s t : State), (∀ ref, i ≠ .init ref) →
    (FreqCacheOk s .ch1 ∨ ∃ f, i = .setFreq .ch1 f) → exec i s = .next t → FreqCacheOk t .ch1)

/-- R26: taking a command as one atomic step and stepping write by write agree. What a command sends is a list of
register words, each a W16 instruction; run one by one from the state in which the command's state changes are made
and nothing is sent yet (R100 item 6), they lead to the state the command leaves. The spec's own decisions D23 and
D24; the register writes as instructions are log entry 5. -/
def Obligations.CommandIsItsRegisterWritesOneByOne : Prop :=
  ∀ (i : Instr) (s t : State), isCommand i = true → CtlLegal s → Idle s → exec i s = .next t →
    ∃ ws, ws.length = writeCount i ∧
      Host.Core.run Sys2Proof.core ws.length { t with tx := s.tx, writes := ws } = .next t

/-! ## The codec -/

/-- R81 (the spec's own decision D6; log entry 6): `RN64` gives the finite binary64 value nearest the real number, the
one with even `m` when two are equally near, and an infinity by the sign from `2^1024 - 2^970` on. -/
def Obligations.RoundingIsNearestTiesToEven : Prop :=
  ∀ r : Frac, 0 < r.den →
    ((2 : ℚ) ^ (1024 : ℤ) - 2 ^ (970 : ℤ) ≤ |r.toRat| → rn64 r = .inf (decide (r.toRat < 0))) ∧
    (|r.toRat| < (2 : ℚ) ^ (1024 : ℤ) - 2 ^ (970 : ℤ) →
      ∃ neg m e, rn64 r = .fin neg m e ∧ (F64.fin neg m e).Representable ∧
        ∀ v : F64, v.Representable →
          |(F64.fin neg m e).toRat - r.toRat| ≤ |v.toRat - r.toRat| ∧
          (|(F64.fin neg m e).toRat - r.toRat| = |v.toRat - r.toRat| → v.toRat ≠ (F64.fin neg m e).toRat →
            m % 2 = 0))

/-- R82 (the spec's own decision D6): the product by 2^28 is exact below 2^996, and the sum with 0.5 is finite
whenever the quotient is. -/
def Obligations.ScalingIsExactAndTheSumIsFinite : Prop :=
  (∀ f : F64, f.Representable → |f.toRat| < (2 : ℚ) ^ (996 : ℤ) →
    (fmul f freqScale).Representable ∧ (fmul f freqScale).toRat = f.toRat * 2 ^ 28) ∧
  ∀ q : F64, q.Representable → (fadd q oneHalf).Representable

/-- R85 (the spec's own decision D8): the word is the open parameter exactly when `f` is a NaN or an infinity, or the
product or the quotient overflows. -/
def Obligations.FrequencyWordIsOpenOnlyWhenNotFinite : Prop :=
  ∀ f ref : Bits64, validReferenceClock ref = true →
    (frequencyWord? f ref = none ↔
      f.extractLsb' 52 11 = 2047#11 ∨ (2 : ℚ) ^ (996 : ℤ) ≤ |bitsToRat f| ∨
        (2 : ℚ) ^ (1024 : ℤ) - 2 ^ (970 : ℤ) ≤ |idealFrequency f ref|)

/-- R85 (the spec's own decision D8; log entry 1): SETFREQ of a NaN, of an infinity or of a value of 2^996 and above
still completes, stores the operand and the drawn word, and sends three words; the next such SETFREQ draws another. -/
def Obligations.NonfiniteFrequencyIsDrawnAndSent : Prop :=
  ∀ (s : State) (c : Chan) (f : Bits64), s.inited = true →
    (f.extractLsb' 52 11 = 2047#11 ∨ (2 : ℚ) ^ (996 : ℤ) ≤ |bitsToRat f|) →
    ∃ t, exec (.setFreq c f) s = .next t ∧ (t.chan c).reqf = f ∧
      (t.chan c).freqw = Config.freqNonfiniteWord s.draws ∧ t.draws = s.draws + 1 ∧
      words t.tx = words s.tx ++ [t.ctl, freqDataWord c (lo14 (Config.freqNonfiniteWord s.draws)),
        freqDataWord c (hi14 (Config.freqNonfiniteWord s.draws))]

/-- R83, R84 (the spec's own decision D7): the word is the integer reduced modulo 2^28, two's complement for negative
integers. -/
def Obligations.FrequencyWordWrapsTheInteger : Prop :=
  ∀ (f ref : Bits64) (n : ℤ), frequencyCount (F64.ofBits f) (F64.ofBits ref) = some n →
    ∃ w, frequencyWord? f ref = some w ∧
      (0 ≤ n → w.toNat = n.toNat % 2 ^ 28) ∧
      (n < 0 → w.toNat = if n.natAbs % 2 ^ 28 = 0 then 0 else 2 ^ 28 - n.natAbs % 2 ^ 28)

/-- R83 (the spec's own decision D7): a request equal to the clock gives `n = 2^28` and the word 0. -/
def Obligations.RequestEqualToTheClockWrapsToZero : Prop :=
  ∀ ref : Bits64, validReferenceClock ref = true → bitsToRat ref < (2 : ℚ) ^ (996 : ℤ) →
    frequencyCount (F64.ofBits ref) (F64.ofBits ref) = some (2 ^ 28) ∧ frequencyWord? ref ref = some 0#28

/-- R84 (the spec's own decision D6): "every `q` with `-1.5 < q <= 0` gives `n = 0`". -/
def Obligations.SmallNegativeQuotientTruncatesToZero : Prop :=
  ∀ q : F64, q.Representable → -3 / 2 < q.toRat → q.toRat ≤ 0 → (fadd q oneHalf).trunc = some 0

/-- R86 case 1 (which the spec derives): an exact tie below 2^52 goes up. -/
def Obligations.ExactTiesRoundUp : Prop :=
  ∀ (f ref : Bits64) (n k : ℤ), validReferenceClock ref = true →
    frequencyCount (F64.ofBits f) (F64.ofBits ref) = some n →
    0 ≤ idealFrequency f ref → idealFrequency f ref < 2 ^ 52 → idealFrequency f ref + 1 / 2 = k → n = k

/-- The integer is within one half of the exact `f × 2^28 / ref`, plus the margin of R86 (which the spec derives). -/
def Obligations.FrequencyCountIsWithinAHalfAndTheMargin : Prop :=
  ∀ (f ref : Bits64) (n : ℤ), validReferenceClock ref = true →
    frequencyCount (F64.ofBits f) (F64.ofBits ref) = some n → 0 ≤ idealFrequency f ref →
    0 ≤ n ∧ |(n : ℚ) - idealFrequency f ref| ≤ 1 / 2 + (idealFrequency f ref + 1) * 2 ^ (-51 : ℤ)

/-- R86 case 2 (which the spec derives): outside the margin the integer is `floor(x + 1/2)`, the document's
`round(x)`. -/
def Obligations.FrequencyCountIsTheRealRounding : Prop :=
  ∀ (f ref : Bits64) (n : ℤ), validReferenceClock ref = true →
    frequencyCount (F64.ofBits f) (F64.ofBits ref) = some n → 0 ≤ idealFrequency f ref →
    (∀ k : ℤ, (idealFrequency f ref + 1) * 2 ^ (-51 : ℤ) < |idealFrequency f ref + 1 / 2 - k|) →
    n = ⌊idealFrequency f ref + 1 / 2⌋

/-- R94 (which the spec derives): for a fixed clock the integer does not fall when the request rises. -/
def Obligations.FrequencyCountIsMonotone : Prop :=
  ∀ (f g ref : Bits64) (n k : ℤ), validReferenceClock ref = true →
    frequencyCount (F64.ofBits f) (F64.ofBits ref) = some n →
    frequencyCount (F64.ofBits g) (F64.ofBits ref) = some k → bitsToRat f ≤ bitsToRat g → n ≤ k

/-- R87 (the spec's own decision D10): the phase units are the half-up rounding of the real `512 × (t/10) / 45`, and
the word is their low 12 bits. -/
def Obligations.PhaseWordIsTheHalfUpRounding : Prop :=
  ∀ t : Tenths, (phaseUnits t : ℤ) = ⌊512 * ((t.toNat : ℚ) / 10) / 45 + 1 / 2⌋ ∧
    (phaseWord t).toNat = phaseUnits t % 4096

/-- R89 (which the spec derives): one turn, 3600 tenths, is 4096 units, so a phase one turn on has the same word. -/
def Obligations.PhaseWordRepeatsEveryTurn : Prop :=
  (∀ t u : Tenths, u.toNat = t.toNat + 3600 → phaseUnits u = phaseUnits t + 4096 ∧ phaseWord u = phaseWord t) ∧
  phaseUnits 65535#16 = 74564 ∧ phaseWord 65535#16 = 0x344#12

/-- R94 (which the spec derives): the phase units do not fall when the phase rises, and the first turn is exactly 0 to
4095. -/
def Obligations.PhaseUnitsAreMonotone : Prop :=
  (∀ t u : Tenths, t.toNat ≤ u.toNat → phaseUnits t ≤ phaseUnits u) ∧
  ∀ t : Tenths, phaseUnits t ≤ 4095 ↔ t.toNat < 3600

/-- R88 (which the spec derives): the binary64 evaluation of the phase formula, in any order of the two divisions and
the multiplication, gives the integer form. -/
def Obligations.PhaseUnitsAgreeWithBinary64 : Prop :=
  ∀ (t : Tenths) (ops : List (F64 → F64)),
    ops.Perm [fun v => fmul (.fin false 512 0) v, fun v => fdiv v (.fin false 10 0),
      fun v => fdiv v (.fin false 45 0)] →
    (fadd (ops.foldl (fun v op => op v) (.fin false t.toNat 0)) oneHalf).trunc = some (phaseUnits t : ℤ)

/-! ## Decoding what was sent -/

/-- R55: a model that decodes `TX` accepts any 16-bit word and ignores its reserved bits: of two control words it reads
the nine fields with a meaning (mask 0x2DEA) and nothing else, of two phase words to one channel bits 11:0 and nothing
else, whatever was sent before. The picture is the model's own reading of `TX` (log entry 7). -/
def Obligations.ReplayIgnoresTheReservedBits : Prop :=
  ∀ (p : Picture) (v w : RegWord), dest v = dest w →
    (dest w = .control → (p.receive v = p.receive w ↔ v &&& 0x2DEA#16 = w &&& 0x2DEA#16)) ∧
    (∀ c, dest w = .phase c → (p.receive v = p.receive w ↔ v &&& 0x0FFF#16 = w &&& 0x0FFF#16))
end

