-- ==== Sys2Proof/Laws/Binary64.lean ====
section
/-! SUPPORT. What the exact fractions and the one rounding of spec/40_codec.md R81 do, said in rational numbers. -/

namespace Sys2Proof.Machine

/-! ## Exact fractions -/

theorem finFrac_den_pos (neg : Bool) (m : Nat) (e : Int) : 0 < (finFrac neg m e).den := by
  simp [finFrac]

theorem two_zpow_split (e : Int) : (2 : ℚ) ^ e = 2 ^ e.toNat / 2 ^ (-e).toNat := by
  rcases le_total 0 e with h | h
  · obtain ⟨k, rfl⟩ := Int.eq_ofNat_of_zero_le h
    simp
  · obtain ⟨k, hk⟩ := Int.eq_ofNat_of_zero_le (neg_nonneg.mpr h)
    obtain rfl : e = -k := by omega
    simp

theorem finFrac_toRat (neg : Bool) (m : Nat) (e : Int) :
    (finFrac neg m e).toRat = (F64.fin neg m e).toRat := by
  simp only [finFrac, Frac.toRat, F64.toRat, two_zpow_split e]
  cases neg <;> push_cast <;> simp <;> ring

theorem Frac.mul_toRat (a b : Frac) : (a.mul b).toRat = a.toRat * b.toRat := by
  simp only [Frac.mul, Frac.toRat]
  push_cast
  rw [div_mul_div_comm]

theorem Frac.mul_den_pos {a b : Frac} (ha : 0 < a.den) (hb : 0 < b.den) : 0 < (a.mul b).den :=
  Nat.mul_pos ha hb

theorem Frac.add_toRat {a b : Frac} (ha : 0 < a.den) (hb : 0 < b.den) :
    (a.add b).toRat = a.toRat + b.toRat := by
  have ha' : (a.den : ℚ) ≠ 0 := by positivity
  have hb' : (b.den : ℚ) ≠ 0 := by positivity
  simp only [Frac.add, Frac.toRat]
  push_cast
  field_simp

theorem Frac.add_den_pos {a b : Frac} (ha : 0 < a.den) (hb : 0 < b.den) : 0 < (a.add b).den :=
  Nat.mul_pos ha hb

theorem Frac.div_toRat {a b : Frac} (ha : 0 < a.den) (hb : 0 < b.den) (h : b.num ≠ 0) :
    (a.div b).toRat = a.toRat / b.toRat := by
  have ha' : (a.den : ℚ) ≠ 0 := by positivity
  have hb' : (b.den : ℚ) ≠ 0 := by positivity
  have hn : (b.num : ℚ) ≠ 0 := by exact_mod_cast h
  simp only [Frac.div, Frac.toRat]
  rcases lt_or_gt_of_ne h with h0 | h0
  · have : (b.num.natAbs : ℚ) = -(b.num : ℚ) := by
      rw [Nat.cast_natAbs, abs_of_neg h0, Int.cast_neg]
    simp only [h0, if_true]
    push_cast
    rw [this]
    field_simp
  · have : (b.num.natAbs : ℚ) = (b.num : ℚ) := by
      rw [Nat.cast_natAbs, abs_of_pos h0]
    simp only [not_lt.mpr h0.le, if_false]
    push_cast
    rw [this]
    field_simp

theorem Frac.div_den_pos {a b : Frac} (ha : 0 < a.den) (h : b.num ≠ 0) : 0 < (a.div b).den :=
  Nat.mul_pos ha (Int.natAbs_pos.mpr h)

theorem finFrac_num_ne_zero {neg : Bool} {m : Nat} {e : Int} (h : m ≠ 0) : (finFrac neg m e).num ≠ 0 := by
  cases neg <;> simp [finFrac, h]

/-! ## The exponent and the integer rounding -/

/-- `floorLog2` is the exponent of the binade that holds the quotient. -/
theorem floorLog2_spec {n d : Nat} (hn : 0 < n) (hd : 0 < d) :
    (2 : ℚ) ^ floorLog2 n d ≤ (n : ℚ) / d ∧ (n : ℚ) / d < 2 ^ (floorLog2 n d + 1) := by
  have hd' : (0 : ℚ) < d := by exact_mod_cast hd
  have n1 : (2 : ℚ) ^ (n.log2 : Int) ≤ n := by exact_mod_cast Nat.log2_self_le hn.ne'
  have n2 : (n : ℚ) < 2 ^ ((n.log2 : Int) + 1) := by
    exact_mod_cast Nat.lt_log2_self (n := n)
  have d1 : (2 : ℚ) ^ (d.log2 : Int) ≤ d := by exact_mod_cast Nat.log2_self_le hd.ne'
  have d2 : (d : ℚ) < 2 ^ ((d.log2 : Int) + 1) := by
    exact_mod_cast Nat.lt_log2_self (n := d)
  have key : d * 2 ^ ((n.log2 : Int) - d.log2).toNat ≤ n * 2 ^ (-((n.log2 : Int) - d.log2)).toNat ↔
      (2 : ℚ) ^ ((n.log2 : Int) - d.log2) ≤ (n : ℚ) / d := by
    rw [two_zpow_split, div_le_div_iff₀ (by positivity) hd', ← Nat.cast_le (α := ℚ)]
    push_cast
    rw [mul_comm (d : ℚ)]
  have two : (2 : ℚ) ≠ 0 := by norm_num
  unfold floorLog2
  simp only [key]
  split
  · rename_i h
    refine ⟨h, ?_⟩
    rw [div_lt_iff₀ hd']
    calc (n : ℚ) < 2 ^ ((n.log2 : Int) + 1) := n2
      _ = 2 ^ ((n.log2 : Int) - d.log2 + 1) * 2 ^ (d.log2 : Int) := by
        rw [← zpow_add₀ two]; congr 1; omega
      _ ≤ 2 ^ ((n.log2 : Int) - d.log2 + 1) * d := by gcongr
  · rename_i h
    refine ⟨?_, by simpa using h⟩
    rw [le_div_iff₀ hd']
    calc (2 : ℚ) ^ ((n.log2 : Int) - d.log2 - 1) * d
        ≤ 2 ^ ((n.log2 : Int) - d.log2 - 1) * 2 ^ ((d.log2 : Int) + 1) := by gcongr
      _ = 2 ^ (n.log2 : Int) := by rw [← zpow_add₀ two]; congr 1; omega
      _ ≤ n := n1

/-- `roundHalfEven` is within one half of the quotient, and even where it is exactly one half away. -/
theorem roundHalfEven_spec (n : Nat) {d : Nat} (hd : 0 < d) :
    |(roundHalfEven n d : ℚ) - (n : ℚ) / d| ≤ 1 / 2 ∧
    (|(roundHalfEven n d : ℚ) - (n : ℚ) / d| = 1 / 2 → roundHalfEven n d % 2 = 0) := by
  have hd' : (0 : ℚ) < d := by exact_mod_cast hd
  have hq : (n : ℚ) / d = (n / d : Nat) + ((n % d : Nat) : ℚ) / d := by
    rw [eq_comm, ← sub_eq_zero]
    field_simp
    have : (d : ℚ) * (n / d : Nat) + (n % d : Nat) = n := by exact_mod_cast Nat.div_add_mod n d
    linarith
  have hr : (n % d : Nat) < d := Nat.mod_lt _ hd
  have hr' : ((n % d : Nat) : ℚ) / d < 1 := by
    rw [div_lt_one hd']; exact_mod_cast hr
  have hr0 : (0 : ℚ) ≤ ((n % d : Nat) : ℚ) / d := by positivity
  have half : (d < 2 * (n % d) ↔ 1 / 2 < ((n % d : Nat) : ℚ) / d) ∧
      (2 * (n % d) = d ↔ ((n % d : Nat) : ℚ) / d = 1 / 2) := by
    constructor
    · rw [lt_div_iff₀ hd', ← Nat.cast_lt (α := ℚ)]
      push_cast
      constructor <;> intro h <;> linarith
    · rw [div_eq_iff hd'.ne', ← Nat.cast_inj (R := ℚ)]
      push_cast
      constructor <;> intro h <;> linarith
  rw [hq]
  unfold roundHalfEven
  simp only [half.1, half.2]
  generalize hx : ((n % d : Nat) : ℚ) / d = x at *
  generalize n / d = q
  split
  · rename_i h
    push_cast
    have e : (q : ℚ) + 1 - (q + x) = 1 - x := by ring
    rw [e, abs_of_pos (by linarith)]
    rcases h with h | ⟨h, ho⟩
    · exact ⟨by linarith, fun h' => by linarith⟩
    · exact ⟨by linarith, fun _ => by omega⟩
  · rename_i h
    have e : (q : ℚ) - (q + x) = -x := by ring
    rw [e, abs_neg, abs_of_nonneg hr0]
    refine ⟨?_, fun h' => ?_⟩
    · by_contra h'
      exact h (.inl (by linarith))
    · by_contra ho
      exact h (.inr ⟨h', by omega⟩)

/-! ## The rounding -/

/-- The magnitude of a fraction, from its numerator's. -/
theorem Frac.abs_toRat (r : Frac) : |r.toRat| = (r.num.natAbs : ℚ) / r.den := by
  rw [Frac.toRat, abs_div, Nat.abs_cast, Nat.cast_natAbs, Int.cast_abs]

/-- What `rn64` answers below the overflow bound, on the grid of multiples of `2^E` that rounds `r`: the integer `M`
nearest `|r| / 2^E`, even where two are equally near. -/
structure Rounds (r : Frac) (v : F64) (E : Int) (M : Nat) : Prop where
  finite : v.isFinite = true
  representable : v.Representable
  value : v.toRat = (if r.num < 0 then -1 else 1) * (M : ℚ) * 2 ^ E
  lowest : -1074 ≤ E
  near : abs ((M : ℚ) * 2 ^ E - |r.toRat|) ≤ 2 ^ E / 2
  even : abs ((M : ℚ) * 2 ^ E - |r.toRat|) = 2 ^ E / 2 → M % 2 = 0
  above : (2 : ℚ) ^ 52 * 2 ^ E ≤ |r.toRat| ∨ E = -1074
  below : |r.toRat| < 2 ^ 53 * 2 ^ E
  parity : M % 2 = 0 → ∀ neg m e, v = .fin neg m e → m % 2 = 0

theorem pow_two_mul (a : Nat) (b : Int) : (2 : ℚ) ^ a * 2 ^ b = 2 ^ ((a : Int) + b) := by
  rw [← zpow_natCast, ← zpow_add₀ (by norm_num)]

theorem f64Overflow_cast : (f64Overflow : ℚ) = 2 ^ (1024 : Int) - 2 ^ (970 : Int) := by
  rw [f64Overflow, Nat.cast_sub (Nat.pow_le_pow_right (by decide) (by decide)), Nat.cast_pow, Nat.cast_pow]
  rfl

theorem f64Overflow_pos : 0 < f64Overflow :=
  Nat.sub_pos_of_lt (Nat.pow_lt_pow_right (by decide) (by decide))

theorem rn64_overflow {r : Frac} (hd : 0 < r.den) (h : (f64Overflow : ℚ) ≤ |r.toRat|) :
    rn64 r = .inf (decide (r.num < 0)) := by
  have hd' : (0 : ℚ) < r.den := by exact_mod_cast hd
  rw [Frac.abs_toRat, le_div_iff₀ hd'] at h
  have hb : f64Overflow * r.den ≤ r.num.natAbs := by exact_mod_cast h
  have hn : r.num.natAbs ≠ 0 := (Nat.mul_pos f64Overflow_pos hd |>.trans_le hb).ne'
  simp only [rn64, hn, if_false, hb, if_true]

theorem rn64_rounds {r : Frac} (hd : 0 < r.den) (h : |r.toRat| < f64Overflow) :
    ∃ E M, Rounds r (rn64 r) E M := by
  have hd' : (0 : ℚ) < r.den := by exact_mod_cast hd
  have two : (2 : ℚ) ≠ 0 := by norm_num
  have habs := Frac.abs_toRat r
  by_cases hn : r.num.natAbs = 0
  · have h0 : r.num = 0 := Int.natAbs_eq_zero.mp hn
    refine ⟨-1074, 0, ?_, ?_, ?_, le_rfl, ?_, fun _ => rfl, .inr rfl, ?_, ?_⟩ <;>
      simp only [rn64, hn, if_true, F64.isFinite, F64.Representable, F64.toRat, habs]
    · decide
    · simp only [Nat.cast_zero, mul_zero, zero_mul]
    · simp only [Nat.cast_zero, zero_div, zero_mul, sub_zero, abs_zero]; positivity
    · simp only [Nat.cast_zero, zero_div]; positivity
    · intro _ neg m e h; injection h with _ hm _; subst hm; rfl
  · have hb : ¬ f64Overflow * r.den ≤ r.num.natAbs := by
      have h' := h
      rw [habs, div_lt_iff₀ hd'] at h'
      rw [not_le]
      exact_mod_cast h'
    have hpos : 0 < r.num.natAbs := Nat.pos_of_ne_zero hn
    obtain ⟨l1, l2⟩ := floorLog2_spec hpos hd
    rw [← habs] at l1 l2
    set L := floorLog2 r.num.natAbs r.den with hL
    set E : Int := max (-1074) (L - 52) with hE
    have hElow : -1074 ≤ E := le_max_left _ _
    have hDpos : 0 < r.den * 2 ^ E.toNat := Nat.mul_pos hd (by positivity)
    set M := roundHalfEven (r.num.natAbs * 2 ^ (-E).toNat) (r.den * 2 ^ E.toNat) with hM
    obtain ⟨s1, s2⟩ := roundHalfEven_spec (r.num.natAbs * 2 ^ (-E).toNat) hDpos
    rw [← hM] at s1 s2
    have hquot : ((r.num.natAbs * 2 ^ (-E).toNat : Nat) : ℚ) / ((r.den * 2 ^ E.toNat : Nat) : ℚ)
        = |r.toRat| / 2 ^ E := by
      rw [habs, two_zpow_split E]
      push_cast
      field_simp
    rw [hquot] at s1 s2
    have hP : (0 : ℚ) < 2 ^ E := by positivity
    have scale : abs ((M : ℚ) * 2 ^ E - |r.toRat|) = abs ((M : ℚ) - |r.toRat| / 2 ^ E) * 2 ^ E := by
      rw [← abs_of_pos hP, ← abs_mul, abs_of_pos hP, sub_mul, div_mul_cancel₀ _ hP.ne']
    have near : abs ((M : ℚ) * 2 ^ E - |r.toRat|) ≤ 2 ^ E / 2 := by
      rw [scale]
      exact (mul_le_mul_of_nonneg_right s1 hP.le).trans_eq (one_div_mul_eq_div _ _)
    have even : abs ((M : ℚ) * 2 ^ E - |r.toRat|) = 2 ^ E / 2 → M % 2 = 0 := by
      intro he
      apply s2
      rw [scale] at he
      have : abs ((M : ℚ) - |r.toRat| / 2 ^ E) * 2 ^ E = 1 / 2 * 2 ^ E := by rw [he]; ring
      exact mul_right_cancel₀ hP.ne' this
    have above : (2 : ℚ) ^ 52 * 2 ^ E ≤ |r.toRat| ∨ E = -1074 := by
      rcases le_total (L - 52) (-1074) with hc | hc
      · exact .inr (max_eq_left hc)
      · left
        have : E = L - 52 := max_eq_right hc
        rw [this]
        have e : (2 : ℚ) ^ 52 * 2 ^ (L - 52) = 2 ^ L := by
          rw [← zpow_natCast, ← zpow_add₀ two]; congr 1; push_cast; omega
        rw [e]; exact l1
    have below : |r.toRat| < 2 ^ 53 * 2 ^ E := by
      have hle : L + 1 ≤ 53 + E := by have := le_max_right (-1074) (L - 52); omega
      have e : (2 : ℚ) ^ 53 * 2 ^ E = 2 ^ (53 + E) := by
        rw [← zpow_natCast, ← zpow_add₀ two]; rfl
      rw [e]
      exact l2.trans_le (zpow_le_zpow_right₀ (by norm_num) hle)
    have hMle : M ≤ 2 ^ 53 := by
      have h1 := (abs_le.mp near).2
      have h2 : (M : ℚ) * 2 ^ E < (2 ^ 53 + 1) * 2 ^ E := by linarith
      have h3 : (M : ℚ) < 2 ^ 53 + 1 := lt_of_mul_lt_mul_right h2 hP.le
      have h4 : M < 2 ^ 53 + 1 := by exact_mod_cast h3
      omega
    rw [f64Overflow_cast] at h
    have h970 : (0 : ℚ) < 2 ^ (970 : Int) := by positivity
    have hEhi : E ≤ 971 := by
      by_contra hc
      rcases above with ha | ha
      · have h1 : (2 : ℚ) ^ (1024 : Int) ≤ 2 ^ ((52 : Nat) + E) :=
          zpow_le_zpow_right₀ (by norm_num) (by push_cast; omega)
        rw [pow_two_mul] at ha
        exact absurd ((h1.trans ha).trans_lt h) (not_lt.mpr (sub_le_self _ h970.le))
      · omega
    have hval : rn64 r = if M = 2 ^ 53 then .fin (decide (r.num < 0)) (2 ^ 52) (E + 1)
        else .fin (decide (r.num < 0)) M E := by
      simp only [rn64, hn, if_false, hb, ← hL, ← hE, ← hM]
    have top : M = 2 ^ 53 → E ≤ 970 := by
      intro hm
      by_contra hc
      have hE971 : E = 971 := by omega
      have h1 := (abs_le.mp near).2
      rw [hm, hE971] at h1
      have e1 : ((2 ^ 53 : Nat) : ℚ) * 2 ^ (971 : Int) = 2 ^ (1024 : Int) := by
        rw [Nat.cast_pow]; exact pow_two_mul 53 971
      have e2 : (2 : ℚ) ^ (971 : Int) / 2 = 2 ^ (970 : Int) := by
        rw [div_eq_iff two]; exact (zpow_add_one₀ two 970)
      rw [e1, e2] at h1
      exact absurd (sub_le_comm.mp h1) (not_le.mpr h)
    refine ⟨E, M, ?_, ?_, ?_, hElow, near, even, above, below, ?_⟩
    · rw [hval]; split <;> rfl
    · rw [hval]; split
      · rename_i hm
        have := top hm
        exact ⟨by norm_num, by omega, by omega⟩
      · rename_i hm
        exact ⟨by omega, hElow, hEhi⟩
    · rw [hval]; split
      · rename_i hm
        simp only [F64.toRat, decide_eq_true_eq, hm]
        rw [zpow_add_one₀ two]
        push_cast
        ring
      · simp only [F64.toRat, decide_eq_true_eq]
    · intro hM2 neg m e h
      rw [hval] at h
      split at h
      · simp only [F64.fin.injEq] at h
        rw [← h.2.1]; norm_num
      · simp only [F64.fin.injEq] at h
        rw [← h.2.1]; exact hM2

/-- Among the multiples of `2^E`, none is nearer. -/
theorem Rounds.nearest_multiple {r : Frac} {v : F64} {E : Int} {M : Nat} (h : Rounds r v E M) (k : Int) :
    abs ((M : ℚ) * 2 ^ E - |r.toRat|) ≤ abs ((k : ℚ) * 2 ^ E - |r.toRat|) := by
  by_cases hk : k = M
  · rw [hk, Int.cast_natCast]
  · have hP : (0 : ℚ) < 2 ^ E := by positivity
    have h1 : (1 : ℚ) ≤ |(k : ℚ) - M| := by
      have : (1 : Int) ≤ |k - M| := Int.one_le_abs (sub_ne_zero.mpr hk)
      exact_mod_cast this
    have h2 : (2 : ℚ) ^ E ≤ |(k : ℚ) * 2 ^ E - M * 2 ^ E| := by
      rw [← sub_mul, abs_mul, abs_of_pos hP]
      exact le_mul_of_one_le_left hP.le h1
    have h3 := abs_sub_le ((k : ℚ) * 2 ^ E) |r.toRat| (M * 2 ^ E)
    rw [abs_sub_comm |r.toRat|] at h3
    have h4 := h.near
    linarith

/-- The sign of the result is the sign of the fraction, so the error is that of the magnitudes. -/
theorem Rounds.error_eq {r : Frac} {v : F64} {E : Int} {M : Nat} (h : Rounds r v E M) :
    |v.toRat - r.toRat| = abs ((M : ℚ) * 2 ^ E - |r.toRat|) := by
  have hr : r.toRat = (if r.num < 0 then -1 else 1) * |r.toRat| := by
    have hd : (0 : ℚ) ≤ r.den := by positivity
    split
    · rename_i hn
      have : r.toRat ≤ 0 := div_nonpos_of_nonpos_of_nonneg (by exact_mod_cast hn.le) hd
      rw [abs_of_nonpos this]; ring
    · rename_i hn
      have : 0 ≤ r.toRat := div_nonneg (by exact_mod_cast not_lt.mp hn) hd
      rw [abs_of_nonneg this]; ring
  rw [h.value]
  conv_lhs => rw [hr]
  rw [mul_assoc, ← mul_sub, abs_mul]
  split <;> simp

/-- Half a unit in the last place, and half the least subnormal at the bottom of the range. -/
theorem Rounds.error_le {r : Frac} {v : F64} {E : Int} {M : Nat} (h : Rounds r v E M) :
    |v.toRat - r.toRat| ≤ |r.toRat| * 2 ^ (-53 : Int) + 2 ^ (-1075 : Int) := by
  rw [h.error_eq]
  have two : (2 : ℚ) ≠ 0 := by norm_num
  have half : (2 : ℚ) ^ E / 2 = 2 ^ (E - 1) := by
    rw [zpow_sub_one₀ two]; rfl
  refine h.near.trans ?_
  rw [half]
  rcases h.above with ha | ha
  · have h1 : (2 : ℚ) ^ (E - 1) = 2 ^ 52 * 2 ^ E * 2 ^ (-53 : Int) := by
      rw [pow_two_mul, ← zpow_add₀ two]; congr 1; push_cast; ring
    rw [h1]
    exact (mul_le_mul_of_nonneg_right ha (by positivity)).trans (le_add_of_nonneg_right (by positivity))
  · rw [ha]
    exact le_add_of_nonneg_left (by positivity)

/-- `RN64` of a value a finite binary64 number has is that value. -/
theorem Rounds.exact {r : Frac} {v : F64} {E : Int} {M : Nat} (h : Rounds r v E M) {w : F64}
    (hw : w.Representable) (hr : r.toRat = w.toRat) : v.toRat = r.toRat := by
  have two : (2 : ℚ) ≠ 0 := by norm_num
  have main : ∃ k : Int, (k : ℚ) * 2 ^ E = |r.toRat| := by
    cases w with
    | nan => exact hw.elim
    | inf _ => exact hw.elim
    | fin neg m e =>
      obtain ⟨hm, he1, -⟩ := hw
      have habs : |r.toRat| = m * 2 ^ e := by
        rw [hr, F64.toRat, abs_mul, abs_mul, abs_of_pos (zpow_pos (by norm_num : (0 : ℚ) < 2) e), Nat.abs_cast]
        cases neg <;> simp
      rcases Nat.eq_zero_or_pos m with hm0 | hm0
      · exact ⟨0, by rw [habs, hm0]; simp⟩
      · have hle : E ≤ e := by
          rcases h.above with ha | ha
          · by_contra hc
            have h1 : (m : ℚ) * 2 ^ e < 2 ^ 53 * 2 ^ e := by
              have : (m : ℚ) < 2 ^ 53 := by exact_mod_cast hm
              gcongr
            have h2 : (2 : ℚ) ^ 53 * 2 ^ e ≤ 2 ^ 52 * 2 ^ E := by
              rw [pow_two_mul, pow_two_mul]
              exact zpow_le_zpow_right₀ (by norm_num) (by push_cast; omega)
            rw [habs] at ha
            linarith
          · omega
        refine ⟨m * 2 ^ (e - E).toNat, ?_⟩
        rw [habs]
        push_cast
        rw [mul_assoc, pow_two_mul]
        congr 2
        omega
  obtain ⟨k, hk⟩ := main
  have h1 := h.nearest_multiple k
  rw [hk, sub_self, abs_zero, ← h.error_eq] at h1
  exact sub_eq_zero.mp (abs_nonpos_iff.mp h1)

end Sys2Proof.Machine
end

