-- ==== Sys2Proof/Laws/Codec.lean ====
section
/-! SUPPORT. One lemma per operation of the codec: the finite values of bit patterns, the product, quotient and sum as
one rounding each, truncation as floor and ceiling, and the frequency word's computation as a chain of them. -/

namespace Sys2Proof.Machine

/-! ## Values of bit patterns -/

theorem F64.toRat_nonneg_of_pos {m : Nat} {e : Int} : 0 ≤ (F64.fin false m e).toRat := by
  simp only [F64.toRat, Bool.false_eq_true, if_false, one_mul]; positivity

theorem F64.abs_toRat (neg : Bool) (m : Nat) (e : Int) : |(F64.fin neg m e).toRat| = m * 2 ^ e := by
  rw [F64.toRat, abs_mul, abs_mul, abs_of_pos (zpow_pos (by norm_num : (0 : ℚ) < 2) e), Nat.abs_cast]
  cases neg <;> simp

/-- A pattern whose exponent field is not all ones is a finite binary64 value (spec/40_codec.md R81). -/
theorem F64.ofBits_representable {b : Bits64} (h : (F64.ofBits b).isFinite = true) :
    (F64.ofBits b).Representable := by
  have hex : (b.extractLsb' 52 11).toNat < 2 ^ 11 := BitVec.isLt _
  have hfr : (b.extractLsb' 0 52).toNat < 2 ^ 52 := BitVec.isLt _
  unfold F64.ofBits at h ⊢
  simp only at h ⊢
  split at h
  · split at h <;> cases h
  · split at h
    · rename_i h1 h2
      simp only [h2, if_true]
      exact ⟨by omega, by omega, by omega⟩
    · rename_i h1 h2
      simp only [h1, h2, if_false]
      exact ⟨by omega, by omega, by omega⟩

theorem F64.ofBits_isFinite (b : Bits64) : (F64.ofBits b).isFinite = true ↔ b.extractLsb' 52 11 ≠ 2047#11 := by
  have e : (b.extractLsb' 52 11).toNat = 2047 ↔ b.extractLsb' 52 11 = 2047#11 := by
    rw [← BitVec.toNat_inj]; rfl
  unfold F64.ofBits
  simp only
  split
  · rename_i h
    simp only [e.mp h, ne_eq, not_true_eq_false, iff_false, Bool.not_eq_true]
    split <;> rfl
  · rename_i h
    have h' := mt e.mpr h
    split <;> simp [F64.isFinite, h']

/-- A clock in the contract is a positive number. -/
theorem validReferenceClock_spec {ref : Bits64} (h : validReferenceClock ref = true) :
    ∃ m e, F64.ofBits ref = .fin false m e ∧ m ≠ 0 := by
  unfold validReferenceClock at h
  cases hv : F64.ofBits ref with
  | nan => rw [hv] at h; cases h
  | inf _ => rw [hv] at h; cases h
  | fin neg m e =>
    rw [hv] at h
    cases neg
    · exact ⟨m, e, rfl, by simpa [F64.isFinitePositive] using h⟩
    · cases h

theorem validReferenceClock_pos {ref : Bits64} (h : validReferenceClock ref = true) : 0 < bitsToRat ref := by
  obtain ⟨m, e, he, hm⟩ := validReferenceClock_spec h
  have : (0 : ℚ) < m := by exact_mod_cast Nat.pos_of_ne_zero hm
  simp only [bitsToRat, he, F64.toRat, Bool.false_eq_true, if_false, one_mul]
  positivity

/-! ## One rounding -/

/-- `v` is `RN64` of the rational number `r`, below the overflow bound. -/
def RoundsTo (r : ℚ) (v : F64) : Prop := ∃ (a : Frac) (E : Int) (M : Nat), a.toRat = r ∧ 0 < a.den ∧ Rounds a v E M

theorem rn64_roundsTo {a : Frac} (hd : 0 < a.den) (h : |a.toRat| < f64Overflow) : RoundsTo a.toRat (rn64 a) := by
  obtain ⟨E, M, hr⟩ := rn64_rounds hd h
  exact ⟨a, E, M, rfl, hd, hr⟩

theorem RoundsTo.representable {r : ℚ} {v : F64} (h : RoundsTo r v) : v.Representable := by
  obtain ⟨_, _, _, _, _, hr⟩ := h; exact hr.representable

theorem RoundsTo.finite {r : ℚ} {v : F64} (h : RoundsTo r v) : v.isFinite = true := by
  obtain ⟨_, _, _, _, _, hr⟩ := h; exact hr.finite

theorem RoundsTo.error_le {r : ℚ} {v : F64} (h : RoundsTo r v) :
    |v.toRat - r| ≤ |r| * 2 ^ (-53 : Int) + 2 ^ (-1075 : Int) := by
  obtain ⟨_, _, _, rfl, _, hr⟩ := h; exact hr.error_le

theorem RoundsTo.exact {r : ℚ} {v w : F64} (h : RoundsTo r v) (hw : w.Representable) (e : r = w.toRat) :
    v.toRat = r := by
  obtain ⟨_, _, _, rfl, _, hr⟩ := h; exact hr.exact hw e

theorem RoundsTo.nonneg {r : ℚ} {v : F64} (h : RoundsTo r v) (h0 : 0 ≤ r) : 0 ≤ v.toRat := by
  obtain ⟨a, E, M, rfl, hd, hr⟩ := h
  have hd' : (0 : ℚ) < a.den := by exact_mod_cast hd
  have hn : ¬ a.num < 0 := by
    intro hc
    exact absurd h0 (not_le.mpr (div_neg_of_neg_of_pos (by exact_mod_cast hc) hd'))
  rw [hr.value, if_neg hn, one_mul]
  positivity

/-- The sign of a fraction is the sign of its value. -/
theorem Frac.num_neg_iff {r : Frac} (hd : 0 < r.den) : r.num < 0 ↔ r.toRat < 0 := by
  have hd' : (0 : ℚ) < r.den := by exact_mod_cast hd
  rw [Frac.toRat, div_neg_iff]
  constructor
  · intro h; exact .inr ⟨by exact_mod_cast h, hd'⟩
  · rintro (⟨_, h⟩ | ⟨h, _⟩)
    · exact absurd h (not_lt.mpr hd'.le)
    · exact_mod_cast h

/-- Two roundings of one real number give one value. -/
theorem RoundsTo.unique {r : ℚ} {v w : F64} (hv : RoundsTo r v) (hw : RoundsTo r w) : v.toRat = w.toRat := by
  obtain ⟨a, E, M, ha0, had, ha⟩ := hv
  obtain ⟨b, F, N, hb0, hbd, hb⟩ := hw
  have h : a.toRat = b.toRat := ha0.trans hb0.symm
  have hEF : E = F := by
    by_contra hne
    rcases lt_or_gt_of_ne hne with hl | hl
    · rcases hb.above with x | x
      · have h1 := ha.below
        rw [h] at h1
        have h2 : (2 : ℚ) ^ 53 * 2 ^ E ≤ 2 ^ 52 * 2 ^ F := by
          rw [pow_two_mul, pow_two_mul]; exact zpow_le_zpow_right₀ (by norm_num) (by push_cast; omega)
        linarith
      · have := ha.lowest; omega
    · rcases ha.above with x | x
      · have h1 := hb.below
        rw [← h] at h1
        have h2 : (2 : ℚ) ^ 53 * 2 ^ F ≤ 2 ^ 52 * 2 ^ E := by
          rw [pow_two_mul, pow_two_mul]; exact zpow_le_zpow_right₀ (by norm_num) (by push_cast; omega)
        linarith
      · have := hb.lowest; omega
  subst hEF
  have hP : (0 : ℚ) < 2 ^ E := by positivity
  have hMN : M = N := by
    by_contra hne
    have h1 : (1 : ℚ) ≤ |(M : ℚ) - N| := by
      have : (1 : Int) ≤ |(M : Int) - N| := Int.one_le_abs (by omega)
      exact_mod_cast this
    have h2 : (2 : ℚ) ^ E ≤ |(M : ℚ) * 2 ^ E - N * 2 ^ E| := by
      rw [← sub_mul, abs_mul, abs_of_pos hP]; exact le_mul_of_one_le_left hP.le h1
    have n1 := ha.near
    have n2 := hb.near
    rw [← h] at n2
    have h3 := abs_sub_le ((M : ℚ) * 2 ^ E) |a.toRat| (N * 2 ^ E)
    rw [abs_sub_comm |a.toRat|] at h3
    have m1 := ha.even (by linarith)
    have m2 := hb.even (by rw [← h]; linarith)
    have h4 : |(M : ℚ) - N| * 2 ^ E ≤ 1 * 2 ^ E := by
      rw [← abs_of_pos hP, ← abs_mul, abs_of_pos hP, sub_mul]; linarith
    have h5 := le_of_mul_le_mul_right h4 hP
    have h6 : |(M : Int) - N| ≤ 1 := by exact_mod_cast h5
    rw [abs_le] at h6
    omega
  rw [ha.value, hb.value, hMN]
  have hs : a.num < 0 ↔ b.num < 0 := by rw [Frac.num_neg_iff had, Frac.num_neg_iff hbd, h]
  simp only [hs]

/-- No binary64 value is nearer than the rounded one. -/
theorem RoundsTo.nearest {x : ℚ} {v w : F64} (h : RoundsTo x v) (hw : w.Representable) :
    |v.toRat - x| ≤ |w.toRat - x| := by
  obtain ⟨a, E, M, rfl, hd, hr⟩ := h
  have e1 := hr.error_eq
  cases w with
  | nan => exact hw.elim
  | inf _ => exact hw.elim
  | fin vn vm ve =>
    obtain ⟨hvm, hve, -⟩ := hw
    set y := (F64.fin vn vm ve).toRat with hy
    have habs : |y| = vm * 2 ^ ve := F64.abs_toRat _ _ _
    by_cases hle : E ≤ ve
    · obtain ⟨k, hk⟩ : ∃ k : Int, |y| = k * 2 ^ E := by
        refine ⟨vm * 2 ^ (ve - E).toNat, ?_⟩
        have : (2 : ℚ) ^ ve = 2 ^ (ve - E).toNat * 2 ^ E := by rw [pow_two_mul]; congr 1; omega
        rw [habs, this]
        push_cast
        ring
      rw [e1]
      refine (hr.nearest_multiple k).trans ?_
      rw [← hk]
      exact abs_abs_sub_abs_le _ _
    · have ha : (2 : ℚ) ^ 52 * 2 ^ E ≤ |a.toRat| := by
        rcases hr.above with h | h
        · exact h
        · omega
      have hyl : |y| < 2 ^ 52 * 2 ^ E := by
        rw [habs]
        have h1 : (vm : ℚ) * 2 ^ ve < 2 ^ 53 * 2 ^ ve := by
          have : (vm : ℚ) < 2 ^ 53 := by exact_mod_cast hvm
          gcongr
        have h2 : (2 : ℚ) ^ 53 * 2 ^ ve ≤ 2 ^ 52 * 2 ^ E := by
          rw [pow_two_mul, pow_two_mul]
          exact zpow_le_zpow_right₀ (by norm_num) (by push_cast; omega)
        linarith
      have h5 := hr.nearest_multiple (2 ^ 52)
      rw [show (((2 : Int) ^ 52 : Int) : ℚ) = 2 ^ 52 by norm_cast] at h5
      rw [← e1, abs_sub_comm (2 ^ 52 * 2 ^ E : ℚ), abs_of_nonneg (sub_nonneg.mpr ha)] at h5
      have h6 : |a.toRat| - |y| ≤ |y - a.toRat| := by
        have := abs_sub_abs_le_abs_sub a.toRat y
        rwa [abs_sub_comm] at this
      linarith

/-- Rounding does not reverse an order. -/
theorem RoundsTo.mono {x y : ℚ} {v w : F64} (hv : RoundsTo x v) (hw : RoundsTo y w) (h : x ≤ y) :
    v.toRat ≤ w.toRat := by
  by_contra hc
  rw [not_le] at hc
  have a := hv.nearest hw.representable
  have b := hw.nearest hv.representable
  have hx : v.toRat + w.toRat ≤ 2 * x := by
    by_contra h1
    rw [not_le] at h1
    rw [abs_of_pos (by linarith : 0 < v.toRat - x)] at a
    rcases le_total (w.toRat - x) 0 with h2 | h2
    · rw [abs_of_nonpos h2] at a; linarith
    · rw [abs_of_nonneg h2] at a; linarith
  have hy : 2 * y ≤ v.toRat + w.toRat := by
    by_contra h1
    rw [not_le] at h1
    rw [abs_of_neg (by linarith : w.toRat - y < 0)] at b
    rcases le_total (v.toRat - y) 0 with h2 | h2
    · rw [abs_of_nonpos h2] at b; linarith
    · rw [abs_of_nonneg h2] at b; linarith
  obtain rfl : x = y := by linarith
  exact hc.ne' (hv.unique hw)

/-- Every binary64 value is below the overflow bound. -/
theorem F64.abs_toRat_le {v : F64} (h : v.Representable) : |v.toRat| ≤ (2 ^ 53 - 1) * 2 ^ (971 : Int) := by
  cases v with
  | nan => exact h.elim
  | inf _ => exact h.elim
  | fin neg m e =>
    obtain ⟨hm, -, he⟩ := h
    rw [F64.abs_toRat]
    have h1 : (m : ℚ) ≤ 2 ^ 53 - 1 := by
      have : (m : ℚ) + 1 ≤ 2 ^ 53 := by exact_mod_cast hm
      linarith
    exact mul_le_mul h1 (zpow_le_zpow_right₀ (by norm_num) he) (by positivity) (by norm_num)

theorem maxFinite_lt_overflow : ((2 : ℚ) ^ 53 - 1) * 2 ^ (971 : Int) + 1 < f64Overflow := by
  have e1 : (2 : ℚ) ^ (1024 : Int) = 2 ^ 54 * 2 ^ (970 : Int) := by rw [pow_two_mul]; rfl
  have e2 : (2 : ℚ) ^ (971 : Int) = 2 * 2 ^ (970 : Int) := by
    rw [show (971 : Int) = 1 + 970 from rfl, zpow_add₀ (by norm_num), zpow_one]
  have h1 : (1 : ℚ) < 2 ^ (970 : Int) := one_lt_zpow₀ (by norm_num) (by norm_num)
  rw [f64Overflow_cast, e1, e2]
  generalize (2 : ℚ) ^ (970 : Int) = x at h1
  linarith

/-! ## The operations -/

theorem fmul_fin (na : Bool) (ma : Nat) (ea : Int) (nb : Bool) (mb : Nat) (eb : Int) :
    ∃ a : Frac, 0 < a.den ∧ a.toRat = (F64.fin na ma ea).toRat * (F64.fin nb mb eb).toRat ∧
      fmul (.fin na ma ea) (.fin nb mb eb) = rn64 a :=
  ⟨_, Frac.mul_den_pos (finFrac_den_pos ..) (finFrac_den_pos ..),
    by rw [Frac.mul_toRat, finFrac_toRat, finFrac_toRat], rfl⟩

theorem fdiv_fin (na : Bool) (ma : Nat) (ea : Int) (nb : Bool) {mb : Nat} (eb : Int) (h : mb ≠ 0) :
    ∃ a : Frac, 0 < a.den ∧ a.toRat = (F64.fin na ma ea).toRat / (F64.fin nb mb eb).toRat ∧
      fdiv (.fin na ma ea) (.fin nb mb eb) = rn64 a :=
  ⟨(finFrac na ma ea).div (finFrac nb mb eb), Frac.div_den_pos (finFrac_den_pos ..) (finFrac_num_ne_zero h),
    by rw [Frac.div_toRat (finFrac_den_pos ..) (finFrac_den_pos ..) (finFrac_num_ne_zero h), finFrac_toRat,
      finFrac_toRat],
    by simp only [fdiv, h, if_false]⟩

theorem fadd_fin (na : Bool) (ma : Nat) (ea : Int) (nb : Bool) (mb : Nat) (eb : Int) :
    ∃ a : Frac, 0 < a.den ∧ a.toRat = (F64.fin na ma ea).toRat + (F64.fin nb mb eb).toRat ∧
      fadd (.fin na ma ea) (.fin nb mb eb) = rn64 a :=
  ⟨_, Frac.add_den_pos (finFrac_den_pos ..) (finFrac_den_pos ..),
    by rw [Frac.add_toRat (finFrac_den_pos ..) (finFrac_den_pos ..), finFrac_toRat, finFrac_toRat], rfl⟩

theorem freqScale_toRat : freqScale.toRat = 2 ^ 28 := by
  simp only [freqScale, F64.toRat, Bool.false_eq_true, if_false, one_mul, Nat.cast_one]; rfl

theorem oneHalf_toRat : oneHalf.toRat = 1 / 2 := by
  simp only [oneHalf, F64.toRat, Bool.false_eq_true, if_false, one_mul, Nat.cast_one]; norm_num

/-- The sum with 0.5: one rounding, always finite (spec/40_codec.md R82). -/
theorem fadd_oneHalf {q : F64} (h : q.Representable) : RoundsTo (q.toRat + 1 / 2) (fadd q oneHalf) := by
  have hb := F64.abs_toRat_le h
  cases q with
  | nan => exact h.elim
  | inf _ => exact h.elim
  | fin neg m e =>
    obtain ⟨a, hd, ha, hv⟩ := fadd_fin neg m e false 1 (-1)
    have ht : (F64.fin false 1 (-1)).toRat = 1 / 2 := oneHalf_toRat
    rw [ht] at ha
    rw [show fadd (F64.fin neg m e) oneHalf = rn64 a from hv, ← ha]
    refine rn64_roundsTo hd ?_
    rw [ha]
    have h1 := abs_add_le (F64.fin neg m e).toRat (1 / 2)
    rw [show |(1 / 2 : ℚ)| = 1 / 2 by norm_num] at h1
    have h2 := maxFinite_lt_overflow
    linarith

/-- Truncation is the floor of a value that is not negative and the ceiling of one that is not positive (R81). -/
theorem trunc_spec {v : F64} (h : v.isFinite = true) :
    ∃ n, v.trunc = some n ∧ (0 ≤ v.toRat → n = ⌊v.toRat⌋) ∧ (v.toRat ≤ 0 → n = ⌈v.toRat⌉) := by
  cases v with
  | nan => cases h
  | inf _ => cases h
  | fin neg m e =>
    have hq : ((m * 2 ^ e.toNat / 2 ^ (-e).toNat : Nat) : Int) = ⌊(m : ℚ) * 2 ^ e⌋ := by
      rw [two_zpow_split, ← mul_div_assoc]
      have : (m : ℚ) * 2 ^ e.toNat / 2 ^ (-e).toNat = ((m * 2 ^ e.toNat : Nat) : ℚ) / ((2 ^ (-e).toNat : Nat) : ℚ) := by
        push_cast; rfl
      rw [this, Rat.floor_natCast_div_natCast]; rfl
    have hpos : (0 : ℚ) ≤ m * 2 ^ e := by positivity
    refine ⟨_, rfl, ?_⟩
    rw [hq]
    cases neg with
    | false =>
      simp only [F64.toRat, Bool.false_eq_true, if_false, one_mul]
      refine ⟨fun _ => trivial, fun h0 => ?_⟩
      have : (m : ℚ) * 2 ^ e = 0 := le_antisymm h0 hpos
      rw [this]; simp
    | true =>
      simp only [F64.toRat, if_true, neg_mul, one_mul]
      refine ⟨fun h0 => ?_, fun _ => by rw [Int.ceil_neg]⟩
      have : (m : ℚ) * 2 ^ e = 0 := by linarith
      rw [this]; simp

theorem trunc_mono {v w : F64} {n k : Int} (hv : v.trunc = some n) (hw : w.trunc = some k)
    (h : v.toRat ≤ w.toRat) : n ≤ k := by
  have fin : ∀ {u : F64} {j : Int}, u.trunc = some j → u.isFinite = true := by
    intro u j hj; cases u <;> first | rfl | cases hj
  obtain ⟨n', e1, p1, m1⟩ := trunc_spec (fin hv)
  obtain ⟨k', e2, p2, m2⟩ := trunc_spec (fin hw)
  rw [hv] at e1; rw [hw] at e2
  cases e1; cases e2
  rcases le_total 0 v.toRat with h0 | h0
  · rw [p1 h0, p2 (h0.trans h)]; exact Int.floor_le_floor h
  · rcases le_total w.toRat 0 with h1 | h1
    · rw [m1 h0, m2 h1]; exact Int.ceil_le_ceil h
    · rw [m1 h0, p2 h1]
      exact (Int.ceil_nonpos.mpr h0).trans (Int.floor_nonneg.mpr h1)

/-! ## The frequency word -/

/-- The product by `2^28`: finite exactly below `2^996`, and then exact (R82). -/
theorem fmul_freqScale {f : F64} (h : f.Representable) :
    (|f.toRat| < 2 ^ (996 : Int) → (fmul f freqScale).Representable ∧ (fmul f freqScale).toRat = f.toRat * 2 ^ 28) ∧
    ((2 : ℚ) ^ (996 : Int) ≤ |f.toRat| → (fmul f freqScale).isFinite = false) := by
  cases f with
  | nan => exact h.elim
  | inf _ => exact h.elim
  | fin neg m e =>
    obtain ⟨hm, he1, he2⟩ := h
    obtain ⟨a, hd, ha, hv⟩ := fmul_fin neg m e false 1 28
    have ht : (F64.fin false 1 28).toRat = 2 ^ 28 := freqScale_toRat
    rw [ht] at ha
    rw [show fmul (F64.fin neg m e) freqScale = rn64 a from hv]
    have habs : |a.toRat| = |(F64.fin neg m e).toRat| * 2 ^ 28 := by
      rw [ha, abs_mul, abs_of_pos (by positivity : (0 : ℚ) < 2 ^ 28)]
    have e1 : (2 : ℚ) ^ (996 : Int) * 2 ^ 28 = 2 ^ (1024 : Int) := by rw [mul_comm, pow_two_mul]; rfl
    constructor
    · intro hlt
      -- the value as a binary64 number
      obtain ⟨w, hw, hwv⟩ : ∃ w : F64, w.Representable ∧ w.toRat = (F64.fin neg m e).toRat * 2 ^ 28 := by
        by_cases hc : e + 28 ≤ 971
        · refine ⟨.fin neg m (e + 28), ⟨hm, by omega, hc⟩, ?_⟩
          simp only [F64.toRat]
          rw [zpow_add₀ (by norm_num), mul_assoc, mul_assoc, mul_assoc]; rfl
        · have hk : (e + 28 - 971).toNat = e + 28 - 971 := Int.toNat_of_nonneg (by omega)
          refine ⟨.fin neg (m * 2 ^ (e + 28 - 971).toNat) 971, ⟨?_, by omega, by omega⟩, ?_⟩
          · rw [F64.abs_toRat] at hlt
            have h1 : (m : ℚ) * 2 ^ (e + 28 - 971).toNat * 2 ^ (943 : Int) < 2 ^ 53 * 2 ^ (943 : Int) := by
              rw [mul_assoc, pow_two_mul, pow_two_mul, hk]
              have e2 : e + 28 - 971 + 943 = e := by omega
              rw [e2]; exact hlt
            have h2 := lt_of_mul_lt_mul_right h1 (by positivity)
            exact_mod_cast h2
          · simp only [F64.toRat]
            push_cast
            have e3 : (2 : ℚ) ^ (e + 28 - 971).toNat * 2 ^ (971 : Int) = 2 ^ e * 2 ^ 28 := by
              rw [pow_two_mul, hk, mul_comm ((2 : ℚ) ^ e), pow_two_mul]; congr 1; push_cast; omega
            rw [mul_assoc, mul_assoc, e3]; ring
      have hsmall : |a.toRat| < f64Overflow := by
        rw [ha, ← hwv]
        exact (F64.abs_toRat_le hw).trans_lt ((lt_add_one _).trans maxFinite_lt_overflow)
      have hr := rn64_roundsTo hd hsmall
      exact ⟨hr.representable, (hr.exact hw (by rw [ha, hwv])).trans ha⟩
    · intro hge
      have : (f64Overflow : ℚ) ≤ |a.toRat| := by
        rw [habs, f64Overflow_cast]
        have h1 : (2 : ℚ) ^ (1024 : Int) ≤ |(F64.fin neg m e).toRat| * 2 ^ 28 := by
          rw [← e1]; exact mul_le_mul_of_nonneg_right hge (by positivity)
        exact (sub_le_self _ (by positivity)).trans h1
      rw [rn64_overflow hd this]; rfl

/-- The quotient by a clock in the contract: one rounding below the overflow bound, infinite from it on (R82). -/
theorem fdiv_clock {p : F64} {ref : Bits64} (h : p.Representable) (hr : validReferenceClock ref = true) :
    (|p.toRat / bitsToRat ref| < f64Overflow → RoundsTo (p.toRat / bitsToRat ref) (fdiv p (F64.ofBits ref))) ∧
    ((f64Overflow : ℚ) ≤ |p.toRat / bitsToRat ref| → (fdiv p (F64.ofBits ref)).isFinite = false) := by
  obtain ⟨mr, er, he, hm⟩ := validReferenceClock_spec hr
  cases p with
  | nan => exact h.elim
  | inf _ => exact h.elim
  | fin neg m e =>
    obtain ⟨a, hd, ha, hv⟩ := fdiv_fin neg m e false er hm
    rw [bitsToRat, he, hv, ← ha]
    exact ⟨rn64_roundsTo hd, fun h => by rw [rn64_overflow hd h]; rfl⟩

/-- Below both bounds the count exists, and it is `trunc` of one rounding of the sum with 0.5 of one rounding of the
exact `f × 2^28 / ref` (R82, R85). -/
theorem frequencyCount_of_finite {f ref : Bits64} (hr : validReferenceClock ref = true)
    (hf : f.extractLsb' 52 11 ≠ 2047#11) (h1 : |bitsToRat f| < 2 ^ (996 : Int))
    (h2 : |idealFrequency f ref| < f64Overflow) :
    ∃ (q s : F64) (n : Int), RoundsTo (idealFrequency f ref) q ∧ RoundsTo (q.toRat + 1 / 2) s ∧ s.trunc = some n ∧
      frequencyCount (F64.ofBits f) (F64.ofBits ref) = some n := by
  have hfin := (F64.ofBits_isFinite f).mpr hf
  obtain ⟨p1, p2⟩ := (fmul_freqScale (F64.ofBits_representable hfin)).1 h1
  have hpf : (fmul (F64.ofBits f) freqScale).isFinite = true := by
    cases hp : fmul (F64.ofBits f) freqScale <;> rw [hp] at p1 <;> first | rfl | exact p1.elim
  have hx : (fmul (F64.ofBits f) freqScale).toRat / bitsToRat ref = idealFrequency f ref := by
    rw [p2]; rfl
  have hq := (fdiv_clock p1 hr).1 (by rw [hx]; exact h2)
  rw [hx] at hq
  have hs := fadd_oneHalf hq.representable
  obtain ⟨n, hn, -⟩ := trunc_spec hs.finite
  refine ⟨_, _, n, hq, hs, hn, ?_⟩
  simp only [frequencyCount, hfin, hpf, hq.finite, Bool.not_true, Bool.false_eq_true, if_false]
  exact hn

/-- At or above either bound, or for an operand that is not finite, there is no count (R85). -/
theorem frequencyCount_of_open {f ref : Bits64} (hr : validReferenceClock ref = true)
    (h : f.extractLsb' 52 11 = 2047#11 ∨ (2 : ℚ) ^ (996 : Int) ≤ |bitsToRat f| ∨
      (f64Overflow : ℚ) ≤ |idealFrequency f ref|) :
    frequencyCount (F64.ofBits f) (F64.ofBits ref) = none := by
  by_cases hf : f.extractLsb' 52 11 = 2047#11
  · have : (F64.ofBits f).isFinite = false := by
      rw [Bool.eq_false_iff, ne_eq, F64.ofBits_isFinite]; exact not_not.mpr hf
    simp [frequencyCount, this]
  · have hfin := (F64.ofBits_isFinite f).mpr hf
    have hm := fmul_freqScale (F64.ofBits_representable hfin)
    by_cases h1 : (2 : ℚ) ^ (996 : Int) ≤ |bitsToRat f|
    · simp [frequencyCount, hfin, hm.2 h1]
    · obtain ⟨p1, p2⟩ := hm.1 (not_le.mp h1)
      have hx : (fmul (F64.ofBits f) freqScale).toRat / bitsToRat ref = idealFrequency f ref := by
        rw [p2]; rfl
      have h3 : (f64Overflow : ℚ) ≤ |idealFrequency f ref| := by
        rcases h with h | h | h
        · exact absurd h hf
        · exact absurd h h1
        · exact h
      have hq := (fdiv_clock p1 hr).2 (by rw [hx]; exact h3)
      simp [frequencyCount, hfin, hq]

/-- The chain of R82 behind a count: `p` is exact, `q` and `s` are one rounding each, and the count is `s`
truncated. -/
theorem frequencyCount_chain {f ref : Bits64} {n : Int} (hr : validReferenceClock ref = true)
    (h : frequencyCount (F64.ofBits f) (F64.ofBits ref) = some n) :
    ∃ q s : F64, RoundsTo (idealFrequency f ref) q ∧ RoundsTo (q.toRat + 1 / 2) s ∧ s.trunc = some n := by
  by_cases hc : f.extractLsb' 52 11 = 2047#11 ∨ (2 : ℚ) ^ (996 : Int) ≤ |bitsToRat f| ∨
      (f64Overflow : ℚ) ≤ |idealFrequency f ref|
  · rw [frequencyCount_of_open hr hc] at h; cases h
  · simp only [not_or, not_le] at hc
    obtain ⟨q, s, k, hq, hs, hk, hn⟩ := frequencyCount_of_finite hr hc.1 hc.2.1 hc.2.2
    rw [hn] at h
    cases h
    exact ⟨q, s, hq, hs, hk⟩

end Sys2Proof.Machine
end

