-- ==== Sys2Proof/Laws/Encoding.lean ====
section
/-! SUPPORT. The bits of masked register words, the fields of command words, the destinations of data words and the
bits of a clock in the contract: the lemmas that claims about encodings cite. -/

namespace Sys2Proof

open Machine

/-! ## Masked register words, bit by bit -/

theorem and_eq_iff_bits (c m v : RegWord) :
    c &&& m = v ↔ ∀ i < 16, (c.getLsbD i && m.getLsbD i) = v.getLsbD i := by
  constructor
  · intro h i _
    rw [← h, BitVec.getLsbD_and]
  · intro h
    apply BitVec.eq_of_getLsbD_eq
    intro i hi
    rw [BitVec.getLsbD_and, h i hi]

theorem forall_lt_16 (p : Nat → Prop) :
    (∀ i < 16, p i) ↔ p 0 ∧ p 1 ∧ p 2 ∧ p 3 ∧ p 4 ∧ p 5 ∧ p 6 ∧ p 7 ∧ p 8 ∧ p 9 ∧ p 10 ∧ p 11 ∧ p 12 ∧ p 13 ∧
      p 14 ∧ p 15 := by
  constructor
  · intro h
    refine ⟨?_, ?_, ?_, ?_, ?_, ?_, ?_, ?_, ?_, ?_, ?_, ?_, ?_, ?_, ?_, ?_⟩ <;> exact h _ (by decide)
  · rintro ⟨_, _, _, _, _, _, _, _, _, _, _, _, _, _, _, _⟩ i hi
    interval_cases i <;> assumption

/-- A masked register word equals a constant when its sixteen bits do; `simp [mask_bits]` turns a row of the opcode
table into facts about bits. -/
theorem mask_bits (c m v : RegWord) :
    c &&& m = v ↔
      (c.getLsbD 0 && m.getLsbD 0) = v.getLsbD 0 ∧ (c.getLsbD 1 && m.getLsbD 1) = v.getLsbD 1 ∧
      (c.getLsbD 2 && m.getLsbD 2) = v.getLsbD 2 ∧ (c.getLsbD 3 && m.getLsbD 3) = v.getLsbD 3 ∧
      (c.getLsbD 4 && m.getLsbD 4) = v.getLsbD 4 ∧ (c.getLsbD 5 && m.getLsbD 5) = v.getLsbD 5 ∧
      (c.getLsbD 6 && m.getLsbD 6) = v.getLsbD 6 ∧ (c.getLsbD 7 && m.getLsbD 7) = v.getLsbD 7 ∧
      (c.getLsbD 8 && m.getLsbD 8) = v.getLsbD 8 ∧ (c.getLsbD 9 && m.getLsbD 9) = v.getLsbD 9 ∧
      (c.getLsbD 10 && m.getLsbD 10) = v.getLsbD 10 ∧ (c.getLsbD 11 && m.getLsbD 11) = v.getLsbD 11 ∧
      (c.getLsbD 12 && m.getLsbD 12) = v.getLsbD 12 ∧ (c.getLsbD 13 && m.getLsbD 13) = v.getLsbD 13 ∧
      (c.getLsbD 14 && m.getLsbD 14) = v.getLsbD 14 ∧ (c.getLsbD 15 && m.getLsbD 15) = v.getLsbD 15 := by
  rw [and_eq_iff_bits, forall_lt_16]

/-! ## The fields of a command word (spec/30_encoding.md R57) -/

@[simp] theorem opField_commandWord (o a : BitVec 4) (i : Bits64) : opField (commandWord o a i) = o := by
  apply BitVec.eq_of_getLsbD_eq
  intro j hj
  have e : 68 + j - 64 - 4 = j := by omega
  have h1 : ¬ 68 + j < 64 := by omega
  have h2 : ¬ 68 + j - 64 < 4 := by omega
  simp only [opField, commandWord, BitVec.getLsbD_extractLsb', BitVec.getLsbD_append, hj, h1, h2, decide_true,
    Bool.true_and, if_false, e]

@[simp] theorem argField_commandWord (o a : BitVec 4) (i : Bits64) : argField (commandWord o a i) = a := by
  apply BitVec.eq_of_getLsbD_eq
  intro j hj
  have e : 64 + j - 64 = j := by omega
  have h1 : ¬ 64 + j < 64 := by omega
  simp only [argField, commandWord, BitVec.getLsbD_extractLsb', BitVec.getLsbD_append, hj, h1, decide_true,
    Bool.true_and, if_false, e, if_true]

@[simp] theorem immField_commandWord (o a : BitVec 4) (i : Bits64) : immField (commandWord o a i) = i := by
  apply BitVec.eq_of_getLsbD_eq
  intro j hj
  simp only [immField, commandWord, BitVec.getLsbD_extractLsb', BitVec.getLsbD_append, hj, decide_true,
    Bool.true_and, if_true, Nat.zero_add]

/-- A command word is its three fields. -/
theorem commandWord_fields (c : Command) : commandWord (opField c) (argField c) (immField c) = c := by
  apply BitVec.eq_of_getLsbD_eq
  intro j hj
  simp only [opField, argField, immField, commandWord, BitVec.getLsbD_append, BitVec.getLsbD_extractLsb']
  by_cases h1 : j < 64
  · simp [h1]
  · by_cases h2 : j - 64 < 4
    · have e : 64 + (j - 64) = j := by omega
      simp [h1, h2, e]
    · have e : 68 + (j - 64 - 4) = j := by omega
      have h3 : j - 64 - 4 < 4 := by omega
      simp [h1, h2, h3, e]

/-- A mask acts on each field: a row of R59 is a condition on `op`, on `arg` and on `imm`. -/
theorem mask_fields (c m v : Command) :
    c &&& m = v ↔ opField c &&& opField m = opField v ∧ argField c &&& argField m = argField v ∧
      immField c &&& immField m = immField v := by
  have ext : ∀ c d : Command, c = d ↔ opField c = opField d ∧ argField c = argField d ∧ immField c = immField d := by
    intro c d
    constructor
    · rintro rfl; exact ⟨rfl, rfl, rfl⟩
    · rintro ⟨a, b, h⟩
      rw [← commandWord_fields c, ← commandWord_fields d, a, b, h]
  have o : opField (c &&& m) = opField c &&& opField m := by
    apply BitVec.eq_of_getLsbD_eq; intro i hi; simp [opField, hi]
  have a : argField (c &&& m) = argField c &&& argField m := by
    apply BitVec.eq_of_getLsbD_eq; intro i hi; simp [argField, hi]
  have i : immField (c &&& m) = immField c &&& immField m := by
    apply BitVec.eq_of_getLsbD_eq; intro i hi; simp [immField, hi]
  rw [ext, o, a, i]

theorem bitArg_mask (b : Bool) : bitArg b &&& 0xE#4 = 0#4 := by cases b <;> decide

theorem bitArg_bit (b : Bool) : (bitArg b).getLsbD 0 = b := by cases b <;> decide

theorem bitArg_of_mask {a : BitVec 4} (h : a &&& 0xE#4 = 0#4) : bitArg (a.getLsbD 0) = a := by
  revert a; decide

@[simp] theorem chanOfBit_bit (c : Chan) : chanOfBit c.bit = c := by cases c <;> rfl

@[simp] theorem bit_chanOfBit (b : Bool) : (chanOfBit b).bit = b := by cases b <;> rfl

/-! ## Data words -/

/-- The low data word in the terms of SETFREQ's rule: `FREQ_TAG(chan) | (FREQW & 0x3FFF)` (R52, R120). -/
theorem freqDataWord_lo14 (c : Chan) (fw : FreqWord) :
    freqDataWord c (lo14 fw) = freqTag c ||| (fw &&& 0x3FFF#28).setWidth 16 := by
  unfold freqDataWord lo14
  congr 1
  apply BitVec.eq_of_toNat_eq
  simp only [BitVec.toNat_setWidth, BitVec.extractLsb'_toNat, BitVec.toNat_and]
  simp
  rw [show (16383 : Nat) = 2 ^ 14 - 1 by rfl, Nat.and_two_pow_sub_one_eq_mod]

/-- The high data word in the same terms: `FREQ_TAG(chan) | ((FREQW >> 14) & 0x3FFF)`. -/
theorem freqDataWord_hi14 (c : Chan) (fw : FreqWord) :
    freqDataWord c (hi14 fw) = freqTag c ||| ((fw >>> 14) &&& 0x3FFF#28).setWidth 16 := by
  unfold freqDataWord hi14
  congr 1
  apply BitVec.eq_of_toNat_eq
  have := fw.isLt
  simp only [BitVec.toNat_setWidth, BitVec.extractLsb'_toNat, BitVec.toNat_and]
  simp
  rw [show (16383 : Nat) = 2 ^ 14 - 1 by rfl, Nat.and_two_pow_sub_one_eq_mod]

/-- Both halves of a frequency word, the high one first, are the word. -/
theorem hi14_append_lo14 (fw : FreqWord) : (hi14 fw ++ lo14 fw : BitVec 28) = fw := by
  apply BitVec.eq_of_getLsbD_eq
  intro i hi
  simp only [BitVec.getLsbD_append, hi14, lo14, BitVec.getLsbD_extractLsb']
  by_cases h : i < 14
  · simp [h]
  · have h2 : i - 14 < 14 := by omega
    have e : 14 + (i - 14) = i := by omega
    simp [h, h2, e]

theorem dest_of_tag {w : RegWord} (h : w.extractLsb' 14 2 = 0#2) : dest w = .control := by simp [dest, h]

theorem dest_freqDataWord (c : Chan) (h : FreqHalf) : dest (freqDataWord c h) = .freq c := by
  have e : (freqDataWord c h).extractLsb' 14 2 = match c with | .ch0 => 1#2 | .ch1 => 2#2 := by
    apply BitVec.eq_of_getLsbD_eq
    intro i hi
    interval_cases i <;> cases c <;> simp [freqDataWord, freqTag]
  cases c <;> simp [dest, e]

theorem dest_phaseDataWord (c : Chan) (p : PhaseWord) : dest (phaseDataWord c p) = .phase c := by
  have e : (phaseDataWord c p).extractLsb' 14 2 = 3#2 := by
    apply BitVec.eq_of_getLsbD_eq
    intro i hi
    interval_cases i <;> cases c <;> simp [phaseDataWord, phaseTag]
  have e2 : (phaseDataWord c p).extractLsb' 13 3 = match c with | .ch0 => 6#3 | .ch1 => 7#3 := by
    apply BitVec.eq_of_getLsbD_eq
    intro i hi
    interval_cases i <;> cases c <;> simp [phaseDataWord, phaseTag]
  cases c <;> simp [dest, e, e2]

/-! ## The picture after one word -/

theorem receive_control {w : RegWord} (h : dest w = .control) (p : Picture) :
    p.receive w =
      { p with control := some (controlFields w), next := if (controlFields w).b28 then some .low else none } := by
  simp [Picture.receive, h]

theorem receive_freq {w : RegWord} {c : Chan} (h : dest w = .freq c) (p : Picture) :
    p.receive w = p.placeHalf c (w.extractLsb' 0 14) := by
  simp [Picture.receive, h]

theorem receive_phase {w : RegWord} {c : Chan} (h : dest w = .phase c) (p : Picture) :
    p.receive w = p.setChan c { p.chan c with phase := some (w.extractLsb' 0 12) } := by
  simp [Picture.receive, h]

theorem freqDataWord_row (c : Chan) (h : FreqHalf) : ∃ row ∈ writeRows, freqDataWord c h &&& row.1 = row.2 := by
  cases c
  · exact ⟨(0xC000, 0x4000), by decide, by simp [mask_bits, freqDataWord, freqTag]⟩
  · exact ⟨(0xC000, 0x8000), by decide, by simp [mask_bits, freqDataWord, freqTag]⟩

theorem phaseDataWord_row (c : Chan) (p : PhaseWord) : ∃ row ∈ writeRows, phaseDataWord c p &&& row.1 = row.2 := by
  cases c
  · exact ⟨(0xF000, 0xC000), by decide, by simp [mask_bits, phaseDataWord, phaseTag]⟩
  · exact ⟨(0xF000, 0xE000), by decide, by simp [mask_bits, phaseDataWord, phaseTag]⟩

namespace Machine

/-- The clock contract of spec/43_init.md R144 on the bits of the pattern: not negative, not an infinity or a NaN, and
not zero. -/
theorem validReferenceClock_bits (ref : Bits64) :
    validReferenceClock ref = true ↔
      ref.getLsbD 63 = false ∧ ref.extractLsb' 52 11 ≠ 2047#11 ∧ ref ≠ 0#64 := by
  have hx : (ref.extractLsb' 52 11).toNat = 2047 ↔ ref.extractLsb' 52 11 = 2047#11 := by
    rw [← BitVec.toNat_inj]; rfl
  unfold validReferenceClock F64.ofBits
  simp only [hx]
  split
  · rename_i h
    split <;> simp [F64.isFinitePositive, h]
  · rename_i h
    have h' : ref.extractLsb' 52 11 ≠ 2047#11 := h
    split
    · rename_i h0
      simp only [F64.isFinitePositive]
      have hz : (ref.extractLsb' 0 52).toNat = 0 ∧ ref.getLsbD 63 = false ↔ ref = 0#64 := by
        constructor
        · rintro ⟨a, b⟩
          apply BitVec.eq_of_toNat_eq
          have hlt := ref.isLt
          simp only [BitVec.extractLsb'_toNat, BitVec.getLsbD, Nat.testBit, Nat.shiftRight_eq_div_pow] at *
          simp at *
          omega
        · rintro rfl; decide
      cases hb : ref.getLsbD 63
      · simp only [hb, and_true] at hz
        rw [ne_eq, ne_eq, ← hz]
        simp
        exact fun _ => h'
      · simp
    · rename_i h0
      simp only [F64.isFinitePositive]
      cases hb : ref.getLsbD 63
      · simp
        refine ⟨h, ?_⟩
        rintro rfl
        exact h0 (by decide)
      · simp

end Machine

end Sys2Proof
end

