-- ==== Sys2Proof/Laws/State.lean ====
section
/-! SUPPORT. One lemma per field per update of State, each true by definition, so that no later proof unfolds a record
update. -/

namespace Sys2Proof.Machine

/-! ## The write primitive and the control register -/

@[simp] theorem State.writeReg_inited (s : State) (w : RegWord) : (s.writeReg w).inited = s.inited := rfl
@[simp] theorem State.writeReg_ctl (s : State) (w : RegWord) : (s.writeReg w).ctl = s.ctl := rfl
@[simp] theorem State.writeReg_refclk (s : State) (w : RegWord) : (s.writeReg w).refclk = s.refclk := rfl
@[simp] theorem State.writeReg_activeMode (s : State) (w : RegWord) : (s.writeReg w).activeMode = s.activeMode := rfl
@[simp] theorem State.writeReg_ch0 (s : State) (w : RegWord) : (s.writeReg w).ch0 = s.ch0 := rfl
@[simp] theorem State.writeReg_ch1 (s : State) (w : RegWord) : (s.writeReg w).ch1 = s.ch1 := rfl
@[simp] theorem State.writeReg_tx (s : State) (w : RegWord) : (s.writeReg w).tx = s.tx ++ frame w := rfl
@[simp] theorem State.writeReg_draws (s : State) (w : RegWord) : (s.writeReg w).draws = s.draws := rfl
@[simp] theorem State.writeReg_commands (s : State) (w : RegWord) : (s.writeReg w).commands = s.commands := rfl
@[simp] theorem State.writeReg_writes (s : State) (w : RegWord) : (s.writeReg w).writes = s.writes := rfl

@[simp] theorem State.putCtl_inited (s : State) (v : RegWord) : (s.putCtl v).inited = s.inited := rfl
@[simp] theorem State.putCtl_ctl (s : State) (v : RegWord) : (s.putCtl v).ctl = v := rfl
@[simp] theorem State.putCtl_refclk (s : State) (v : RegWord) : (s.putCtl v).refclk = s.refclk := rfl
@[simp] theorem State.putCtl_activeMode (s : State) (v : RegWord) : (s.putCtl v).activeMode = s.activeMode := rfl
@[simp] theorem State.putCtl_ch0 (s : State) (v : RegWord) : (s.putCtl v).ch0 = s.ch0 := rfl
@[simp] theorem State.putCtl_ch1 (s : State) (v : RegWord) : (s.putCtl v).ch1 = s.ch1 := rfl
@[simp] theorem State.putCtl_tx (s : State) (v : RegWord) : (s.putCtl v).tx = s.tx ++ frame v := rfl
@[simp] theorem State.putCtl_draws (s : State) (v : RegWord) : (s.putCtl v).draws = s.draws := rfl
@[simp] theorem State.putCtl_commands (s : State) (v : RegWord) : (s.putCtl v).commands = s.commands := rfl
@[simp] theorem State.putCtl_writes (s : State) (v : RegWord) : (s.putCtl v).writes = s.writes := rfl

/-! ## The channels -/

@[simp] theorem State.chan_ch0 (s : State) : s.chan .ch0 = s.ch0 := rfl
@[simp] theorem State.chan_ch1 (s : State) : s.chan .ch1 = s.ch1 := rfl
@[simp] theorem State.setChan_ch0_ch0 (s : State) (v : Channel) : (s.setChan .ch0 v).ch0 = v := rfl
@[simp] theorem State.setChan_ch0_ch1 (s : State) (v : Channel) : (s.setChan .ch0 v).ch1 = s.ch1 := rfl
@[simp] theorem State.setChan_ch1_ch1 (s : State) (v : Channel) : (s.setChan .ch1 v).ch1 = v := rfl
@[simp] theorem State.setChan_ch1_ch0 (s : State) (v : Channel) : (s.setChan .ch1 v).ch0 = s.ch0 := rfl

@[simp] theorem State.chan_setChan_self (s : State) (c : Chan) (v : Channel) : (s.setChan c v).chan c = v := by
  cases c <;> rfl

theorem State.chan_setChan_ne (s : State) {c d : Chan} (h : d ≠ c) (v : Channel) :
    (s.setChan c v).chan d = s.chan d := by
  cases c <;> cases d <;> simp_all

@[simp] theorem State.chan_writeReg (s : State) (w : RegWord) (c : Chan) : (s.writeReg w).chan c = s.chan c := by
  cases c <;> rfl

@[simp] theorem State.chan_putCtl (s : State) (v : RegWord) (c : Chan) : (s.putCtl v).chan c = s.chan c := by
  cases c <;> rfl

@[simp] theorem State.setChan_inited (s : State) (c : Chan) (v : Channel) : (s.setChan c v).inited = s.inited := by
  cases c <;> rfl
@[simp] theorem State.setChan_ctl (s : State) (c : Chan) (v : Channel) : (s.setChan c v).ctl = s.ctl := by
  cases c <;> rfl
@[simp] theorem State.setChan_refclk (s : State) (c : Chan) (v : Channel) : (s.setChan c v).refclk = s.refclk := by
  cases c <;> rfl
@[simp] theorem State.setChan_activeMode (s : State) (c : Chan) (v : Channel) : (s.setChan c v).activeMode = s.activeMode := by
  cases c <;> rfl
@[simp] theorem State.setChan_tx (s : State) (c : Chan) (v : Channel) : (s.setChan c v).tx = s.tx := by
  cases c <;> rfl
@[simp] theorem State.setChan_draws (s : State) (c : Chan) (v : Channel) : (s.setChan c v).draws = s.draws := by
  cases c <;> rfl
@[simp] theorem State.setChan_commands (s : State) (c : Chan) (v : Channel) : (s.setChan c v).commands = s.commands := by
  cases c <;> rfl
@[simp] theorem State.setChan_writes (s : State) (c : Chan) (v : Channel) : (s.setChan c v).writes = s.writes := by
  cases c <;> rfl

end Sys2Proof.Machine
end

