-- ==== Sys2Proof/Laws/Ops.lean ====
section
/-! SUPPORT. One lemma per shared operation, saying all it does, and the lemmas of `TX` as frames and as words. -/

namespace Sys2Proof.Machine

/-! ## Frames and words -/

@[simp] theorem words_nil : words [] = [] := rfl

@[simp] theorem words_append (a b : List Event) : words (a ++ b) = words a ++ words b := by
  induction a with
  | nil => rfl
  | cons e es ih => cases e <;> simp [words, ih]

/-- The two bytes of a frame, first byte high, are the word (spec/20_memory.md R32). -/
@[simp] theorem words_frame (w : RegWord) : words (frame w) = [w] := by
  have h : (w.extractLsb' 8 8 ++ w.extractLsb' 0 8 : BitVec 16) = w := by
    apply BitVec.eq_of_getLsbD_eq
    intro i hi
    simp only [BitVec.getLsbD_append, BitVec.getLsbD_extractLsb']
    by_cases h8 : i < 8
    · simp [h8]
    · have : i - 8 < 8 := by omega
      have e : 8 + (i - 8) = i := by omega
      simp [h8, this, e]
  simp [words, frame, h]

@[simp] theorem frames_nil : frames [] = [] := rfl

@[simp] theorem frames_cons (w : RegWord) (ws : List RegWord) : frames (w :: ws) = frame w ++ frames ws := rfl

theorem frames_append (a b : List RegWord) : frames (a ++ b) = frames a ++ frames b := by
  simp [frames]

@[simp] theorem words_frames (ws : List RegWord) : words (frames ws) = ws := by
  induction ws with
  | nil => rfl
  | cons w ws ih => simp [ih]

/-! ## The precondition -/

theorem State.whenInited_of_inited {s : State} (h : s.inited = true) (t : State) : s.whenInited t = .next t := by
  simp [State.whenInited, h]

theorem State.whenInited_of_not_inited {s : State} (h : s.inited = false) (t : State) :
    s.whenInited t = .refused .notInitialised := by
  simp [State.whenInited, h]

theorem State.whenInited_next {s t u : State} : s.whenInited t = .next u ↔ s.inited = true ∧ u = t := by
  cases h : s.inited
  · simp [State.whenInited, h]
  · simp [State.whenInited, h, eq_comm (a := t)]

theorem State.whenInited_refused {s t : State} {r : Refusal} :
    s.whenInited t = .refused r ↔ s.inited = false ∧ r = .notInitialised := by
  cases h : s.inited
  · simp [State.whenInited, h, eq_comm (a := Refusal.notInitialised)]
  · simp [State.whenInited, h]

/-! ## The operations -/

/-- `putCtl`: the mirror takes the value and the value is sent. -/
theorem State.putCtl_eq (s : State) (v : RegWord) : s.putCtl v = { s with ctl := v, tx := s.tx ++ frames [v] } := by
  simp [State.putCtl, State.writeReg]

theorem State.doReset_true (s : State) : s.doReset true = s.putCtl (setBits resetBit s.ctl) := rfl

theorem State.doReset_false (s : State) :
    s.doReset false = (s.putCtl (setBits resetBit s.ctl)).putCtl (clearBits resetBit (setBits resetBit s.ctl)) := rfl

/-- SETFREQ: the request, the word and the forced `B28`, then the three words. -/
theorem State.doSetFreq_eq (s : State) (c : Chan) (f : Bits64) :
    s.doSetFreq c f =
      { s.setChan c { s.chan c with reqf := f, freqw := s.frequencyWord f, freqWritten := true } with
        ctl := setBits b28Bit s.ctl
        draws := s.drawsAfter f
        tx := s.tx ++ frames [setBits b28Bit s.ctl, freqDataWord c (lo14 (s.frequencyWord f)),
          freqDataWord c (hi14 (s.frequencyWord f))] } := by
  cases c <;> simp [State.doSetFreq, State.storeFreq, State.writeReg, State.chan, State.setChan]

/-- SETPHASE: the request and the word, then one word. -/
theorem State.doSetPhase_eq (s : State) (c : Chan) (t : Tenths) :
    s.doSetPhase c t =
      { s.setChan c { s.chan c with reqp := t, phasew := phaseWord t, phaseWritten := true } with
        tx := s.tx ++ frames [phaseDataWord c (phaseWord t)] } := by
  cases c <;> simp [State.doSetPhase, State.storePhase, State.writeReg, State.chan, State.setChan]

/-- The word SETFREQ stores where the codec gives one. -/
theorem State.frequencyWord_of_some {s : State} {f : Bits64} {w : FreqWord} (h : frequencyWord? f s.refclk = some w) :
    s.frequencyWord f = w ∧ s.drawsAfter f = s.draws := by
  simp [State.frequencyWord, State.drawsAfter, h]

/-- The word SETFREQ stores where the codec gives none: the next draw. -/
theorem State.frequencyWord_of_none {s : State} {f : Bits64} (h : frequencyWord? f s.refclk = none) :
    s.frequencyWord f = Config.freqNonfiniteWord s.draws ∧ s.drawsAfter f = s.draws + 1 := by
  simp [State.frequencyWord, State.drawsAfter, h]

/-- INIT: the state it leaves and the eleven words it sends, with the word of 1000.0 at the new clock. -/
theorem State.doInit_eq (s : State) (ref : Bits64) :
    s.doInit ref =
      { s with
        inited := true
        refclk := ref
        ctl := 0x2000#16
        activeMode := .sine
        ch0 := { reqf := initFreq, freqw := { s with refclk := ref }.frequencyWord initFreq, reqp := 0#16,
                 phasew := phaseWord 0#16, freqWritten := true, phaseWritten := true }
        draws := { s with refclk := ref }.drawsAfter initFreq
        tx := s.tx ++ frames [0x2000#16, 0x2100#16, 0x2100#16,
          freqDataWord .ch0 (lo14 ({ s with refclk := ref }.frequencyWord initFreq)),
          freqDataWord .ch0 (hi14 ({ s with refclk := ref }.frequencyWord initFreq)),
          phaseDataWord .ch0 (phaseWord 0#16), 0x2100#16, 0x2000#16, 0x2000#16, 0x2000#16, 0x2000#16] } := by
  have hw : ∀ u : State, u.refclk = ref → u.draws = s.draws →
      u.frequencyWord initFreq = { s with refclk := ref }.frequencyWord initFreq ∧
        u.drawsAfter initFreq = { s with refclk := ref }.drawsAfter initFreq := by
    intro u hr hd
    simp only [State.frequencyWord, State.drawsAfter, hr, hd, and_self]
  generalize { s with refclk := ref }.frequencyWord initFreq = fw at *
  generalize { s with refclk := ref }.drawsAfter initFreq = d at *
  simp only [State.doInit, State.doReset_true, State.doReset_false, State.doSetFreq_eq, State.doSetPhase_eq,
    State.doSetMode, State.doSetAFreq, State.doSetAPhase, State.putCtl_eq, State.setChan, State.chan, hw,
    List.append_assoc, ← frames_append]
  rfl

/-- SETFREQ where the codec gives a word. -/
theorem State.doSetFreq_of_some {s : State} {f : Bits64} {w : FreqWord} (c : Chan)
    (h : frequencyWord? f s.refclk = some w) :
    s.doSetFreq c f =
      { s.setChan c { s.chan c with reqf := f, freqw := w, freqWritten := true } with
        ctl := setBits b28Bit s.ctl
        draws := s.draws
        tx := s.tx ++ frames [setBits b28Bit s.ctl, freqDataWord c (lo14 w), freqDataWord c (hi14 w)] } := by
  rw [State.doSetFreq_eq, (State.frequencyWord_of_some h).1, (State.frequencyWord_of_some h).2]

/-- INIT where the codec gives a word for 1000.0 at the new clock. -/
theorem State.doInit_of_some {s : State} {ref : Bits64} {w : FreqWord} (h : frequencyWord? initFreq ref = some w) :
    s.doInit ref =
      { s with
        inited := true
        refclk := ref
        ctl := 0x2000#16
        activeMode := .sine
        ch0 := { reqf := initFreq, freqw := w, reqp := 0#16, phasew := phaseWord 0#16, freqWritten := true,
                 phaseWritten := true }
        tx := s.tx ++ frames [0x2000#16, 0x2100#16, 0x2100#16, freqDataWord .ch0 (lo14 w),
          freqDataWord .ch0 (hi14 w), phaseDataWord .ch0 (phaseWord 0#16), 0x2100#16, 0x2000#16, 0x2000#16,
          0x2000#16, 0x2000#16] } := by
  obtain ⟨e1, e2⟩ := State.frequencyWord_of_some (s := { s with refclk := ref }) h
  rw [State.doInit_eq, e1, e2]

end Sys2Proof.Machine
end

