-- ==== Sys2Proof/Laws/Exec.lean ====
section
/-! SUPPORT. What an instruction that completes leaves, and what a step does: the inversion lemmas that invariants are
derived from. -/

namespace Sys2Proof.Machine

/-- The control register and the mode a control-register operation leaves, and the words it sends. -/
def controlResult : Instr → State → RegWord × Mode × List RegWord
  | .reset true, s => (s.ctl ||| 0x0100#16, s.activeMode, [s.ctl ||| 0x0100#16])
  | .reset false, s =>
    (s.ctl &&& ~~~0x0100#16, s.activeMode, [s.ctl ||| 0x0100#16, s.ctl &&& ~~~0x0100#16])
  | .setModeOff, s => (modeBits .off s.ctl, .off, [modeBits .off s.ctl])
  | .setModeSine, s => (modeBits .sine s.ctl, .sine, [modeBits .sine s.ctl])
  | .setModeTriangle, s => (modeBits .triangle s.ctl, .triangle, [modeBits .triangle s.ctl])
  | .setModeSquareHalf, s => (modeBits .squareHalf s.ctl, .squareHalf, [modeBits .squareHalf s.ctl])
  | .setModeSquareFull, s => (modeBits .squareFull s.ctl, .squareFull, [modeBits .squareFull s.ctl])
  | .setAFreq c, s => (selectChannel fselectBit c s.ctl, s.activeMode, [selectChannel fselectBit c s.ctl])
  | .setAPhase c, s => (selectChannel pselectBit c s.ctl, s.activeMode, [selectChannel pselectBit c s.ctl])
  | _, s => (s.ctl, s.activeMode, [])

/-- The word a register write sends. -/
def registerWord : Instr → RegWord
  | .ctrlWrite w => w
  | .freq0Write h => freqDataWord .ch0 h
  | .freq1Write h => freqDataWord .ch1 h
  | .phase0Write p => phaseDataWord .ch0 p
  | .phase1Write p => phaseDataWord .ch1 p
  | _ => 0#16

/-- Setting a bit and then clearing it is clearing it. -/
theorem clear_set_reset (c : RegWord) : (c ||| 0x0100#16) &&& ~~~0x0100#16 = c &&& ~~~0x0100#16 := by
  apply BitVec.eq_of_getLsbD_eq
  intro i hi
  simp only [BitVec.getLsbD_and, BitVec.getLsbD_or, BitVec.getLsbD_not, hi, decide_true, Bool.true_and]
  cases BitVec.getLsbD 0x0100#16 i <;> simp

/-- What an instruction that completes leaves: one of five shapes, with the guard it passed. -/
theorem exec_next_cases {i : Instr} {s t : State} (h : exec i s = .next t) :
    (isControlOp i = true ∧ s.inited = true ∧
      t = { s with
        ctl := (controlResult i s).1
        activeMode := (controlResult i s).2.1
        tx := s.tx ++ frames (controlResult i s).2.2 }) ∨
    (∃ c f, i = .setFreq c f ∧ s.inited = true ∧ t = s.doSetFreq c f) ∨
    (∃ c x, i = .setPhase c x ∧ s.inited = true ∧ t = s.doSetPhase c x) ∨
    (∃ ref, i = .init ref ∧ validReferenceClock ref = true ∧ t = s.doInit ref) ∨
    (isCommand i = false ∧ t = { s with tx := s.tx ++ frames [registerWord i] }) := by
  cases i with
  | init ref =>
    simp only [exec, execInit] at h
    split at h
    · cases h; exact .inr (.inr (.inr (.inl ⟨ref, rfl, ‹_›, rfl⟩)))
    · cases h
  | reset hold =>
    obtain ⟨hi, rfl⟩ := State.whenInited_next.mp h
    refine .inl ⟨rfl, hi, ?_⟩
    cases hold
    · rw [State.doReset_false, State.putCtl_eq, State.putCtl_eq]
      simp only [setBits, clearBits, resetBit, clear_set_reset, controlResult, List.append_assoc, ← frames_append,
        List.cons_append, List.nil_append]
    · rw [State.doReset_true, State.putCtl_eq]; rfl
  | setModeOff => obtain ⟨hi, rfl⟩ := State.whenInited_next.mp h; exact .inl ⟨rfl, hi, by simp [State.doSetMode, State.putCtl_eq, controlResult]⟩
  | setModeSine => obtain ⟨hi, rfl⟩ := State.whenInited_next.mp h; exact .inl ⟨rfl, hi, by simp [State.doSetMode, State.putCtl_eq, controlResult]⟩
  | setModeTriangle => obtain ⟨hi, rfl⟩ := State.whenInited_next.mp h; exact .inl ⟨rfl, hi, by simp [State.doSetMode, State.putCtl_eq, controlResult]⟩
  | setModeSquareHalf => obtain ⟨hi, rfl⟩ := State.whenInited_next.mp h; exact .inl ⟨rfl, hi, by simp [State.doSetMode, State.putCtl_eq, controlResult]⟩
  | setModeSquareFull => obtain ⟨hi, rfl⟩ := State.whenInited_next.mp h; exact .inl ⟨rfl, hi, by simp [State.doSetMode, State.putCtl_eq, controlResult]⟩
  | setAFreq c => obtain ⟨hi, rfl⟩ := State.whenInited_next.mp h; exact .inl ⟨rfl, hi, by simp [State.doSetAFreq, State.putCtl_eq, controlResult]⟩
  | setAPhase c => obtain ⟨hi, rfl⟩ := State.whenInited_next.mp h; exact .inl ⟨rfl, hi, by simp [State.doSetAPhase, State.putCtl_eq, controlResult]⟩
  | setFreq c f => obtain ⟨hi, rfl⟩ := State.whenInited_next.mp h; exact .inr (.inl ⟨c, f, rfl, hi, rfl⟩)
  | setPhase c x => obtain ⟨hi, rfl⟩ := State.whenInited_next.mp h; exact .inr (.inr (.inl ⟨c, x, rfl, hi, rfl⟩))
  | ctrlWrite w => cases h; exact .inr (.inr (.inr (.inr ⟨rfl, by simp [State.writeReg, registerWord]⟩)))
  | freq0Write w => cases h; exact .inr (.inr (.inr (.inr ⟨rfl, by simp [State.writeReg, registerWord]⟩)))
  | freq1Write w => cases h; exact .inr (.inr (.inr (.inr ⟨rfl, by simp [State.writeReg, registerWord]⟩)))
  | phase0Write w => cases h; exact .inr (.inr (.inr (.inr ⟨rfl, by simp [State.writeReg, registerWord]⟩)))
  | phase1Write w => cases h; exact .inr (.inr (.inr (.inr ⟨rfl, by simp [State.writeReg, registerWord]⟩)))

/-- What `fetch` answers. -/
theorem State.fetch_some {s t : State} {cw : CodeWord} (h : s.fetch = some (cw, t)) :
    (∃ w ws, s.writes = w :: ws ∧ cw = .write w ∧ t = { s with writes := ws }) ∨
    (∃ c cs, s.writes = [] ∧ s.commands = c :: cs ∧ cw = .command c ∧ t = { s with commands := cs }) := by
  cases hw : s.writes with
  | cons w ws =>
    simp only [State.fetch, hw, Option.some.injEq, Prod.mk.injEq] at h
    exact .inl ⟨w, ws, rfl, h.1.symm, h.2.symm⟩
  | nil =>
    cases hc : s.commands with
    | nil => simp only [State.fetch, hw, hc, reduceCtorEq] at h
    | cons c cs =>
      simp only [State.fetch, hw, hc, Option.some.injEq, Prod.mk.injEq] at h
      exact .inr ⟨c, cs, rfl, rfl, h.1.symm, h.2.symm⟩

theorem State.fetch_none {s : State} (h : s.fetch = none) : s.writes = [] ∧ s.commands = [] := by
  cases hw : s.writes with
  | cons w ws => simp only [State.fetch, hw, reduceCtorEq] at h
  | nil =>
    cases hc : s.commands with
    | nil => exact ⟨rfl, rfl⟩
    | cons c cs => simp only [State.fetch, hw, hc, reduceCtorEq] at h

/-- A step that completes left the state alone, or ran a register write that was waiting, or ran a command. -/
theorem step_next_cases {s t : State} (h : step s = .next t) :
    (s.writes = [] ∧ s.commands = [] ∧ t = s) ∨
    (∃ w ws i, s.writes = w :: ws ∧ decodeWrite w = .ok i ∧ exec i { s with writes := ws } = .next t) ∨
    (∃ c cs i, s.writes = [] ∧ s.commands = c :: cs ∧ decodeCommand c = .ok i ∧
      exec i { s with commands := cs } = .next t) := by
  unfold step at h
  split at h
  · rename_i hf
    cases h
    exact .inl ⟨(State.fetch_none hf).1, (State.fetch_none hf).2, rfl⟩
  · rename_i cw u hf
    split at h
    · rename_i i hd
      obtain ⟨w, ws, hw, rfl, rfl⟩ | ⟨c, cs, hw, hc, rfl, rfl⟩ := State.fetch_some hf
      · exact .inr (.inl ⟨w, ws, i, hw, hd, h⟩)
      · exact .inr (.inr ⟨c, cs, i, hw, hc, hd, h⟩)
    · cases h

/-- A command word decodes to a command. -/
theorem isCommand_of_decodeCommand {c : Command} {i : Instr} (h : decodeCommand c = .ok i) : isCommand i = true := by
  unfold decodeCommand oneBitArg setModeOfCode at h
  repeat' split at h
  all_goals first
    | (cases h; rfl)
    | cases h

end Sys2Proof.Machine
end

