-- ==== Sys2Proof/Laws/PerInstr.lean ====
section
/-! SUPPORT. The per-instruction statements: one family, `TableRow`, with one lemma per constructor of `Instr`. -/

namespace Sys2Proof.Laws.TableRow

open Sys2Proof Sys2Proof.Machine

/-- The encoding of a well-formed instruction matches a mask and match row of the opcode table of its own kind: a
command word a CMD72 row (spec/30_encoding.md R59), a register word a W16 row (R51 to R53). -/
def Statement (i : Instr) : Prop :=
  i.WellFormed →
    match encode i with
    | .command c => ∃ row ∈ commandRows, c &&& row.1 = row.2
    | .write w => ∃ row ∈ writeRows, w &&& row.1 = row.2

/-- A command word with a one-bit operand and `imm` 0 matches the row of its `op`. -/
theorem oneBit_row (o : BitVec 4) (b : Bool) (v : Command)
    (hv : opField v = o ∧ argField v = 0#4 ∧ immField v = 0#64) :
    commandWord o (bitArg b) 0#64 &&& 0xFEFFFFFFFFFFFFFFFF#72 = v := by
  obtain ⟨h1, h2, h3⟩ := hv
  rw [mask_fields, opField_commandWord, argField_commandWord, immField_commandWord, h1, h2, h3]
  refine ⟨?_, ?_, ?_⟩
  · clear h2 h3
    rw [show opField 0xFEFFFFFFFFFFFFFFFF#72 = 15#4 by decide]
    clear h1; revert o; decide
  · rw [show argField 0xFEFFFFFFFFFFFFFFFF#72 = 0xE#4 by decide]
    exact bitArg_mask b
  · exact BitVec.zero_and

theorem init (ref : Bits64) : Statement (.init ref) := by
  intro _
  refine ⟨(0xFF0000000000000000, 0x000000000000000000), by decide, ?_⟩
  show _ &&& 0xFF0000000000000000#72 = 0x000000000000000000#72
  rw [mask_fields, opField_commandWord, argField_commandWord, immField_commandWord]
  refine ⟨by decide, by decide, ?_⟩
  rw [show immField 0xFF0000000000000000#72 = 0#64 by decide]
  exact BitVec.and_zero

theorem reset (hold : Bool) : Statement (.reset hold) := fun _ =>
  ⟨(0xFEFFFFFFFFFFFFFFFF, 0x100000000000000000), by decide, oneBit_row 1#4 hold _ (by decide)⟩

theorem setModeOff : Statement .setModeOff := fun _ =>
  ⟨(0xFFFFFFFFFFFFFFFFFF, 0x200000000000000000), by decide, by decide⟩

theorem setModeSine : Statement .setModeSine := fun _ =>
  ⟨(0xFFFFFFFFFFFFFFFFFF, 0x210000000000000000), by decide, by decide⟩

theorem setModeTriangle : Statement .setModeTriangle := fun _ =>
  ⟨(0xFFFFFFFFFFFFFFFFFF, 0x220000000000000000), by decide, by decide⟩

theorem setModeSquareHalf : Statement .setModeSquareHalf := fun _ =>
  ⟨(0xFFFFFFFFFFFFFFFFFF, 0x230000000000000000), by decide, by decide⟩

theorem setModeSquareFull : Statement .setModeSquareFull := fun _ =>
  ⟨(0xFFFFFFFFFFFFFFFFFF, 0x240000000000000000), by decide, by decide⟩

theorem setAFreq (c : Chan) : Statement (.setAFreq c) := fun _ =>
  ⟨(0xFEFFFFFFFFFFFFFFFF, 0x300000000000000000), by decide, oneBit_row 3#4 c.bit _ (by decide)⟩

theorem setAPhase (c : Chan) : Statement (.setAPhase c) := fun _ =>
  ⟨(0xFEFFFFFFFFFFFFFFFF, 0x400000000000000000), by decide, oneBit_row 4#4 c.bit _ (by decide)⟩

theorem setFreq (c : Chan) (f : Bits64) : Statement (.setFreq c f) := by
  intro _
  refine ⟨(0xFE0000000000000000, 0x500000000000000000), by decide, ?_⟩
  show _ &&& 0xFE0000000000000000#72 = 0x500000000000000000#72
  rw [mask_fields, opField_commandWord, argField_commandWord, immField_commandWord]
  refine ⟨by decide, ?_, ?_⟩
  · cases c <;> decide
  · rw [show immField 0xFE0000000000000000#72 = 0#64 by decide]
    exact BitVec.and_zero

theorem setPhase (c : Chan) (t : Tenths) : Statement (.setPhase c t) := by
  intro _
  refine ⟨(0xFEFFFFFFFFFFFF0000, 0x600000000000000000), by decide, ?_⟩
  show _ &&& 0xFEFFFFFFFFFFFF0000#72 = 0x600000000000000000#72
  rw [mask_fields, opField_commandWord, argField_commandWord, immField_commandWord]
  refine ⟨by decide, ?_, ?_⟩
  · cases c <;> decide
  · rw [show immField 0xFEFFFFFFFFFFFF0000#72 = 0xFFFFFFFFFFFF0000#64 by decide,
      show immField 0x600000000000000000#72 = 0#64 by decide]
    apply BitVec.eq_of_getLsbD_eq
    intro i hi
    by_cases h : i < 16
    · have hm : (0xFFFFFFFFFFFF0000#64).getLsbD i = false := by
        clear hi; revert i; decide
      rw [BitVec.getLsbD_and, hm, Bool.and_false, BitVec.getLsbD_zero]
    · rw [BitVec.getLsbD_and, BitVec.getLsbD_setWidth, BitVec.getLsbD_of_ge t i (by omega), Bool.and_false,
        Bool.false_and, BitVec.getLsbD_zero]

theorem ctrlWrite (w : RegWord) : Statement (.ctrlWrite w) := by
  intro hw
  refine ⟨(0xF215, 0x2000), by decide, ?_⟩
  simp only [Instr.WellFormed, Instr.wellFormed, controlTagOk, controlWideOk, controlHlbOk, controlUnnamedOk,
    Bool.and_eq_true, beq_iff_eq] at hw
  simp [mask_bits] at hw ⊢
  simp [hw]

theorem freq0Write (half : FreqHalf) : Statement (.freq0Write half) := fun _ => freqDataWord_row .ch0 half

theorem freq1Write (half : FreqHalf) : Statement (.freq1Write half) := fun _ => freqDataWord_row .ch1 half

theorem phase0Write (pw : PhaseWord) : Statement (.phase0Write pw) := fun _ => phaseDataWord_row .ch0 pw

theorem phase1Write (pw : PhaseWord) : Statement (.phase1Write pw) := fun _ => phaseDataWord_row .ch1 pw

end Sys2Proof.Laws.TableRow
end

