-- ==== Sys2Proof/Tests/Slice0.lean ====
section
/-! SUPPORT. The model's own tests: ill-formed terms refused, words written out from the spec's encodings decoded, one
step of each instruction against the spec's test vectors (spec/95_test_vectors.md, whose ids the comments name), and a
witness for the hypotheses of each obligation. -/

namespace Sys2Proof.Tests

open Sys2Proof Sys2Proof.Machine

/-! ## Ill-formed terms, one for each check of `WellFormed` -/

theorem test_control_tag_refused :
    controlTagOk 0x6000#16 = false ∧ (Instr.ctrlWrite 0x6000#16).wellFormed = false := by decide

theorem test_control_b28_refused :
    controlWideOk 0x0000#16 = false ∧ (Instr.ctrlWrite 0x0000#16).wellFormed = false := by decide

theorem test_control_hlb_refused :
    controlHlbOk 0x3000#16 = false ∧ (Instr.ctrlWrite 0x3000#16).wellFormed = false := by decide

theorem test_control_unnamed_refused :
    controlUnnamedOk 0x2010#16 = false ∧ (Instr.ctrlWrite 0x2010#16).wellFormed = false := by decide

theorem test_control_word_accepted : (Instr.ctrlWrite 0x2C02#16).wellFormed = true := by decide

/-! ## Decoding words written out from spec/30_encoding.md R51 to R53 and R58 -/

/-- V-D1: `op` 0000, `arg` 0000, `imm` the pattern of 25000000.0. -/
theorem test_decode_init : decodeTableWord 72 0x004177D78400000000 = some (.init 0x4177D78400000000#64) := by decide

/-- V-D5, V-D6: `op` 0001, `arg` 000h. -/
theorem test_decode_reset :
    decodeTableWord 72 0x100000000000000000 = some (.reset false) ∧
    decodeTableWord 72 0x110000000000000000 = some (.reset true) := by decide

/-- R62: `op` 0010, `arg` 0mmm with the mode codes 0 to 4. -/
theorem test_decode_setmode :
    decodeTableWord 72 0x200000000000000000 = some .setModeOff ∧
    decodeTableWord 72 0x210000000000000000 = some .setModeSine ∧
    decodeTableWord 72 0x220000000000000000 = some .setModeTriangle ∧
    decodeTableWord 72 0x230000000000000000 = some .setModeSquareHalf ∧
    decodeTableWord 72 0x240000000000000000 = some .setModeSquareFull := by decide

/-- V-D15, V-D17: `op` 0011 and 0100, `arg` 000c. -/
theorem test_decode_select :
    decodeTableWord 72 0x310000000000000000 = some (.setAFreq .ch1) ∧
    decodeTableWord 72 0x300000000000000000 = some (.setAFreq .ch0) ∧
    decodeTableWord 72 0x410000000000000000 = some (.setAPhase .ch1) ∧
    decodeTableWord 72 0x400000000000000000 = some (.setAPhase .ch0) := by decide

/-- V-D19, V-D20: `op` 0101, `arg` 000c, `imm` any pattern. -/
theorem test_decode_setfreq :
    decodeTableWord 72 0x51412E848000000000 = some (.setFreq .ch1 0x412E848000000000#64) ∧
    decodeTableWord 72 0x50FFFFFFFFFFFFFFFF = some (.setFreq .ch0 0xFFFFFFFFFFFFFFFF#64) := by decide

/-- V-D22, V-D23: `op` 0110, `arg` 000c, `imm[15:0]` the tenths. -/
theorem test_decode_setphase :
    decodeTableWord 72 0x610000000000000384 = some (.setPhase .ch1 900#16) ∧
    decodeTableWord 72 0x60000000000000FFFF = some (.setPhase .ch0 65535#16) := by decide

/-- V-D2, V-D7, V-D8, V-D11 to V-D14, V-D16, V-D18, V-D21, V-D24 to V-D28: refused, by name. -/
theorem test_decode_invalid :
    decodeCommand 0x014177D78400000000 = .error .reservedArg ∧
    decodeCommand 0x120000000000000000 = .error .reservedArg ∧
    decodeCommand 0x110000000000000001 = .error .reservedImm ∧
    decodeCommand 0x250000000000000000 = .error .reservedMode ∧
    decodeCommand 0x270000000000000000 = .error .reservedMode ∧
    decodeCommand 0x280000000000000000 = .error .reservedArg ∧
    decodeCommand 0x210000000000000001 = .error .reservedImm ∧
    decodeCommand 0x320000000000000000 = .error .reservedArg ∧
    decodeCommand 0x480000000000000000 = .error .reservedArg ∧
    decodeCommand 0x52412E848000000000 = .error .reservedArg ∧
    decodeCommand 0x600000000000010000 = .error .reservedImm ∧
    decodeCommand 0x640000000000000384 = .error .reservedArg ∧
    decodeCommand 0x700000000000000000 = .error .reservedOp ∧
    decodeCommand 0xF00000000000000000 = .error .reservedOp ∧
    decodeCommand 0xFFFFFFFFFFFFFFFFFF = .error .reservedOp := by
  refine ⟨rfl, rfl, rfl, rfl, rfl, rfl, rfl, rfl, rfl, rfl, rfl, rfl, rfl, rfl, rfl⟩

/-- R51: 00, B28 = 1, FSELECT and PSELECT set, MODE = 1. -/
theorem test_decode_ctrl_write : decodeTableWord 16 0b0010110000000010 = some (.ctrlWrite 0x2C02#16) := by decide

/-- R91: tag 01 and `lo14` = 0x170A; tag 10 and `hi14` = 0x028F. -/
theorem test_decode_freq_write :
    decodeTableWord 16 0b0101011100001010 = some (.freq0Write 0x170A#14) ∧
    decodeTableWord 16 0b1000001010001111 = some (.freq1Write 0x028F#14) := by decide

/-- R92: tag 110 and tag 111 with bit 12 clear, phase word 0x400. -/
theorem test_decode_phase_write :
    decodeTableWord 16 0b1100010000000000 = some (.phase0Write 0x400#12) ∧
    decodeTableWord 16 0b1110010000000000 = some (.phase1Write 0x400#12) ∧
    decodeTableWord 16 0b1101010000000000 = none := by decide

/-! ## One step of each instruction -/

/-- A small initialised state at 25 MHz with a given mirror, channels as nothing in a test reads them. -/
def ready (ctl : RegWord) : State where
  inited := true
  ctl := ctl
  refclk := 0x4177D78400000000#64
  activeMode := .sine
  ch0 := ⟨0, 0, 0, 0, false, false⟩
  ch1 := ⟨0, 0, 0, 0, false, false⟩
  tx := []
  draws := 0
  commands := []
  writes := []

/-- `ready` with the mirror after INIT and one command to run. -/
def readyFor (c : Command) : State := { ready 0x2000#16 with commands := [c] }

/-- The mirror after an instruction, and the words it sent. -/
def sends : Host.Outcome State Fault Refusal → Option (RegWord × List RegWord)
  | .next t => some (t.ctl, words t.tx)
  | .fault _ => none
  | .refused _ => none

/-- The refusal, if it is one. -/
def refusal : Host.Outcome State Fault Refusal → Option Refusal
  | .refused r => some r
  | .next _ => none
  | .fault _ => none

/-- The mode after an instruction. -/
def modeAfter : Host.Outcome State Fault Refusal → Option Mode
  | .next t => some t.activeMode
  | .fault _ => none
  | .refused _ => none

/-- P1: INIT at 25 MHz from power-on. -/
theorem test_init_log :
    sends (exec (.init 0x4177D78400000000#64) State.reset) =
      some (0x2000#16, [0x2000#16, 0x2100#16, 0x2100#16, 0x69F1#16, 0x4000#16, 0xC000#16, 0x2100#16, 0x2000#16,
        0x2000#16, 0x2000#16, 0x2000#16]) := by decide +kernel

/-- V-X4 to V-X7: zero, a negative clock, an infinity and a NaN are refused. -/
theorem test_init_refuses :
    refusal (exec (.init 0x0000000000000000#64) (ready 0x2000#16)) = some .badReferenceClock ∧
    refusal (exec (.init 0xC177D78400000000#64) (ready 0x2000#16)) = some .badReferenceClock ∧
    refusal (exec (.init 0x7FF0000000000000#64) (ready 0x2000#16)) = some .badReferenceClock ∧
    refusal (exec (.init 0x7FF8000000000000#64) (ready 0x2000#16)) = some .badReferenceClock := by decide +kernel

/-- V-R5. -/
theorem test_reset_release : sends (exec (.reset false) (ready 0x2C0A#16)) =
    some (0x2C0A#16, [0x2D0A#16, 0x2C0A#16]) := by decide

/-- V-R6. -/
theorem test_reset_hold : sends (exec (.reset true) (ready 0x20C0#16)) = some (0x21C0#16, [0x21C0#16]) := by decide

/-- V-M6, V-M21. -/
theorem test_setmode_off :
    sends (exec .setModeOff (ready 0x2028#16)) = some (0x20C8#16, [0x20C8#16]) ∧
    sends (exec .setModeOff (ready 0x21C2#16)) = some (0x21C0#16, [0x21C0#16]) ∧
    modeAfter (exec .setModeOff (ready 0x2028#16)) = some .off := by decide

/-- V-M17, V-M22. -/
theorem test_setmode_sine :
    sends (exec .setModeSine (ready 0x2C28#16)) = some (0x2C08#16, [0x2C08#16]) ∧
    sends (exec .setModeSine (ready 0x21C2#16)) = some (0x2100#16, [0x2100#16]) ∧
    modeAfter (exec .setModeSine (ready 0x2C28#16)) = some .sine := by decide

/-- V-M8, V-M23. -/
theorem test_setmode_triangle :
    sends (exec .setModeTriangle (ready 0x2028#16)) = some (0x200A#16, [0x200A#16]) ∧
    sends (exec .setModeTriangle (ready 0x21C2#16)) = some (0x2102#16, [0x2102#16]) ∧
    modeAfter (exec .setModeTriangle (ready 0x2028#16)) = some .triangle := by decide

/-- V-M4, V-M24. -/
theorem test_setmode_square_half :
    sends (exec .setModeSquareHalf (ready 0x2000#16)) = some (0x2028#16, [0x2028#16]) ∧
    sends (exec .setModeSquareHalf (ready 0x21C2#16)) = some (0x2128#16, [0x2128#16]) ∧
    modeAfter (exec .setModeSquareHalf (ready 0x2000#16)) = some .squareHalf := by decide

/-- V-M10, V-M20: `DIV2` is cleared. -/
theorem test_setmode_square_full :
    sends (exec .setModeSquareFull (ready 0x2028#16)) = some (0x2020#16, [0x2020#16]) ∧
    sends (exec .setModeSquareFull (ready 0x2C28#16)) = some (0x2C20#16, [0x2C20#16]) ∧
    modeAfter (exec .setModeSquareFull (ready 0x2028#16)) = some .squareFull := by decide

/-- V-S1, V-S8. -/
theorem test_setafreq :
    sends (exec (.setAFreq .ch1) (ready 0x2000#16)) = some (0x2800#16, [0x2800#16]) ∧
    sends (exec (.setAFreq .ch0) (ready 0x2D28#16)) = some (0x2528#16, [0x2528#16]) := by decide

/-- V-S6, V-S7. -/
theorem test_setaphase :
    sends (exec (.setAPhase .ch1) (ready 0x2802#16)) = some (0x2C02#16, [0x2C02#16]) ∧
    sends (exec (.setAPhase .ch0) (ready 0x2C02#16)) = some (0x2802#16, [0x2802#16]) := by decide

/-- V-Q2, V-Q3. -/
theorem test_setfreq :
    sends (exec (.setFreq .ch1 0x412E848000000000#64) (ready 0x2000#16)) =
      some (0x2000#16, [0x2000#16, 0x970A#16, 0x828F#16]) ∧
    sends (exec (.setFreq .ch0 0x408F400000000000#64) (ready 0x2C0A#16)) =
      some (0x2C0A#16, [0x2C0A#16, 0x69F1#16, 0x4000#16]) := by decide +kernel

/-- V-Q5, V-Q6: a held reset is carried, and the tag does not disturb the half. -/
theorem test_setfreq_held_reset :
    sends (exec (.setFreq .ch0 0x4167D78400000000#64) (ready 0x2100#16)) =
      some (0x2100#16, [0x2100#16, 0x4000#16, 0x6000#16]) ∧
    sends (exec (.setFreq .ch1 0x4167D78400000000#64) (ready 0x2100#16)) =
      some (0x2100#16, [0x2100#16, 0x8000#16, 0xA000#16]) := by decide +kernel

/-- V-Q7, V-Q8, V-P26. -/
theorem test_setphase :
    sends (exec (.setPhase .ch0 1234#16) (ready 0x21C2#16)) = some (0x21C2#16, [0xC57C#16]) ∧
    sends (exec (.setPhase .ch1 1234#16) (ready 0x2000#16)) = some (0x2000#16, [0xE57C#16]) ∧
    sends (exec (.setPhase .ch0 65535#16) (ready 0x2000#16)) = some (0x2000#16, [0xC344#16]) := by decide

/-- R31, R32 on the word 0x69F1: byte 0x69 first. -/
theorem test_write_bytes :
    (match exec (.freq0Write 0x29F1#14) (ready 0x2000#16) with
      | .next t => t.tx
      | _ => []) = [.select, .transmit 0x69#8 0xF1#8, .deselect] := by decide

/-- R91, R92 on the other register writes. -/
theorem test_write_words :
    sends (exec (.ctrlWrite 0x2C02#16) (ready 0x2000#16)) = some (0x2000#16, [0x2C02#16]) ∧
    sends (exec (.freq1Write 0x028F#14) (ready 0x2000#16)) = some (0x2000#16, [0x828F#16]) ∧
    sends (exec (.phase0Write 0x57C#12) (ready 0x2000#16)) = some (0x2000#16, [0xC57C#16]) ∧
    sends (exec (.phase1Write 0x400#12) (ready 0x2000#16)) = some (0x2000#16, [0xE400#16]) := by decide

/-- V-X1, V-X3: not initialised, and the encoding checked first. -/
theorem test_step_refuses_before_init :
    refusal (step { State.reset with commands := [0x210000000000000000] }) = some .notInitialised ∧
    refusal (step { State.reset with commands := [0x250000000000000000] }) = some .invalidEncoding := by decide

/-- A command word placed by `withFetchWord` runs next; a register word does too. -/
theorem test_with_fetch_word :
    sends (step ((ready 0x2000#16).withFetchWord 72 0x310000000000000000)) = some (0x2800#16, [0x2800#16]) ∧
    sends (step (State.withFetchWord { ready 0x2000#16 with writes := [0x2000#16] } 72 0x310000000000000000)) =
      some (0x2800#16, [0x2800#16]) ∧
    sends (step ((readyFor 0x310000000000000000).withFetchWord 16 0xE400)) = some (0x2000#16, [0xE400#16]) := by
  decide

/-! ## The codec -/

/-- V-F14, V-F16, V-F18, V-F21, V-F22: the order of the operations and the rounding of each. -/
theorem test_frequency_rounding_corners :
    frequencyWord? 0x3FCC9C37FFFFFFFF#64 0x4176E36000000000#64 = some 2#28 ∧
    frequencyWord? 0x3FA7D783FFFFFFFF#64 0x4177D78400000000#64 = some 1#28 ∧
    frequencyWord? 0x4170000000000001#64 0x3FF0000000000000#64 = some 2#28 ∧
    frequencyWord? 0x4004000000000000#64 0x41B0000000000000#64 = some 3#28 ∧
    frequencyWord? 0x3FDFFFFFFFFFFFFF#64 0x41B0000000000000#64 = some 1#28 := by decide +kernel

/-- V-F24, V-F25, V-F28, V-F29, V-F30, V-F33, V-F35: wraparound, negatives, a subnormal. -/
theorem test_frequency_wraps :
    frequencyWord? 0x4177D7C280000000#64 0x4177D78400000000#64 = some 0x00029F1#28 ∧
    frequencyWord? 0x4177D783FE666666#64 0x4177D78400000000#64 = some 0xFFFFFFF#28 ∧
    frequencyWord? 0x7E20000000000000#64 0x4177D78400000000#64 = some 0#28 ∧
    frequencyWord? 0xBFF0000000000000#64 0x4177D78400000000#64 = some 0xFFFFFF6#28 ∧
    frequencyWord? 0xC08F400000000000#64 0x4177D78400000000#64 = some 0xFFFD610#28 ∧
    frequencyWord? 0xBFB999999999999A#64 0x4177D78400000000#64 = some 0#28 ∧
    frequencyWord? 0x0000000000000001#64 0x4177D78400000000#64 = some 0#28 := by decide +kernel

/-- V-F36, V-F39, V-F40, V-F41: no integer to wrap. -/
theorem test_frequency_open :
    frequencyWord? 0x7E30000000000000#64 0x4177D78400000000#64 = none ∧
    frequencyWord? 0xFFF0000000000000#64 0x4177D78400000000#64 = none ∧
    frequencyWord? 0x7FF8000000000000#64 0x4177D78400000000#64 = none ∧
    frequencyWord? 0x3FF0000000000000#64 0x01A56E1FC2F8F359#64 = none := by decide +kernel

/-- V-P5, V-P9, V-P14, V-P20, V-P25. -/
theorem test_phase_words :
    phaseWord 4#16 = 0x005#12 ∧ phaseWord 11#16 = 0x00D#12 ∧ phaseWord 899#16 = 0x3FF#12 ∧
    phaseWord 3599#16 = 0xFFF#12 ∧ phaseWord 32768#16 = 0x1A3#12 := by decide

/-! ## Witnesses: for each obligation with hypotheses, a concrete state and operands that meet them all -/

/-- The words of P1. -/
def initWords : List RegWord :=
  [0x2000#16, 0x2100#16, 0x2100#16, 0x69F1#16, 0x4000#16, 0xC000#16, 0x2100#16, 0x2000#16, 0x2000#16, 0x2000#16,
    0x2000#16]

/-- The end state of P1 in the elements INIT writes, with one command to run. -/
def booted (cs : List Command) : State where
  inited := true
  ctl := 0x2000#16
  refclk := 0x4177D78400000000#64
  activeMode := .sine
  ch0 := ⟨0x408F400000000000#64, 0x00029F1#28, 0#16, 0#12, true, true⟩
  ch1 := ⟨0, 0, 0, 0, false, false⟩
  tx := frames initWords
  draws := 0
  commands := cs
  writes := []

/-- The state `booted` with `SETMODE triangle` has stepped to. -/
def triangular : State :=
  { booted [] with ctl := 0x2002#16, activeMode := .triangle, tx := frames initWords ++ frames [0x2002#16] }

theorem booted_steps : step (booted [0x220000000000000000]) = .next triangular := rfl

theorem booted_word : frequencyWord? 0x408F400000000000#64 0x4177D78400000000#64 = some 0x00029F1#28 := by
  decide +kernel

theorem booted_legal : CtlLegal (booted []) := by
  intro _
  refine ⟨by decide, by decide, by decide, ?_, ?_⟩ <;> (intro h; cases h)

/-- Every invariant holds of `booted`, so the invariants' premises hold together. -/
theorem booted_invariants :
    Idle (booted [0x220000000000000000]) ∧ Framed (booted [0x220000000000000000]) ∧
    CtlLegal (booted [0x220000000000000000]) ∧ MirrorExact (booted [0x220000000000000000]) ∧
    PictureAgrees (booted [0x220000000000000000]) ∧ LifecycleOk (booted [0x220000000000000000]) ∧
    PhaseCacheOk (booted [0x220000000000000000]) ∧ ∀ c, FreqCacheOk (booted [0x220000000000000000]) c := by
  refine ⟨rfl, by unfold Framed; decide, fun _ => ?_, fun _ => by decide, ⟨fun _ => by decide, fun c => ?_⟩, ⟨?_, ?_⟩,
    fun c => ?_, fun c => ?_⟩
  · refine ⟨by decide, by decide, by decide, ?_, ?_⟩ <;> (intro h; cases h)
  · cases c
    · exact ⟨fun _ => by decide, fun _ => by decide⟩
    · exact ⟨fun h => (by cases h), fun h => (by cases h)⟩
  · intro h; cases h
  · exact fun _ => ⟨(validReferenceClock_bits _).mpr ⟨by decide, by decide, by decide⟩, rfl, rfl⟩
  · cases c
    · exact fun _ => by decide
    · intro h; cases h
  · cases c
    · intro _ w h
      have h' : frequencyWord? 0x408F400000000000#64 0x4177D78400000000#64 = some w := h
      rw [booted_word] at h'
      cases h'
      rfl
    · intro h; cases h

theorem witness_StepRunsTheFetchedInstruction :
    (∃ (s : State) (c : Command) (cs : List Command) (i : Instr),
      s.writes = [] ∧ s.commands = c :: cs ∧ decodeCommand c = .ok i) ∧
    (∃ (s : State) (w : RegWord) (ws : List RegWord) (i : Instr), s.writes = w :: ws ∧ decodeWrite w = .ok i) ∧
    ∃ s : State, s.writes = [] ∧ s.commands = [] :=
  ⟨⟨booted [0x220000000000000000], _, _, .setModeTriangle, rfl, rfl, rfl⟩,
    ⟨{ booted [] with writes := [0xE400#16] }, _, _, .phase1Write 0x400#12, rfl, rfl⟩, ⟨booted [], rfl, rfl⟩⟩

theorem witness_UnmatchedCommandWordIsRefused :
    ∃ (s : State) (c : Command) (cs : List Command), s.writes = [] ∧ s.commands = c :: cs ∧
      ∀ row ∈ commandRows, c &&& row.1 ≠ row.2 := by
  refine ⟨booted [0x700000000000000000], 0x700000000000000000, [], rfl, rfl, fun row h => ?_⟩
  simp only [commandRows, List.mem_cons, List.not_mem_nil, or_false] at h
  rcases h with rfl | rfl | rfl | rfl | rfl | rfl | rfl | rfl | rfl | rfl | rfl <;> decide

theorem witness_StepRefusesOnlyForItsReasons :
    step (booted [0x700000000000000000]) = .refused .invalidEncoding ∧
    step { booted [0x210000000000000000] with inited := false } = .refused .notInitialised ∧
    step (booted [0x000000000000000000]) = .refused .badReferenceClock ∧
    step { booted [] with writes := [0xD000#16] } = .refused .neverEmitted := by
  refine ⟨rfl, rfl, ?_, rfl⟩
  have h : validReferenceClock 0#64 = false := by decide
  show exec (.init 0#64) (booted []) = _
  rw [exec, execInit, h]
  rfl

theorem witness_CommandBeforeInitIsRefused :
    ∃ (i : Instr) (s : State), isCommand i = true ∧ (∀ ref, i ≠ .init ref) ∧ s.inited = false :=
  ⟨.setModeSine, State.reset, rfl, fun _ h => (by cases h), rfl⟩

theorem witness_DecodeOfEncodeIsTheInstruction : (Instr.ctrlWrite 0x2DC8#16).WellFormed := by decide

theorem witness_EncodeOfDecodeIsTheWord :
    decode (.command 0x610000000000000384) = .ok (.setPhase .ch1 900#16) ∧
    decode (.write 0x2DC8#16) = .ok (.ctrlWrite 0x2DC8#16) := ⟨rfl, rfl⟩

theorem witness_initialised : (booted []).inited = true := rfl

theorem witness_SetFreqStoresAndSendsThreeWords :
    ((booted []).inited = true ∧ frequencyWord? 0x408F400000000000#64 (booted []).refclk = some 0x00029F1#28) ∧
    ((booted []).inited = true ∧ frequencyWord? 0x7FF8000000000000#64 (booted []).refclk = none) :=
  ⟨⟨rfl, booted_word⟩, rfl, by decide +kernel⟩

theorem witness_SetPhaseStoresAndSendsOneWord :
    (booted []).inited = true ∧ (0x344#12).toNat = (512 * (65535#16).toNat + 225) / 450 % 4096 := ⟨rfl, by decide⟩

theorem witness_InitSendsElevenWordsAndSetsTheState :
    ((0x4177D78400000000#64).getLsbD 63 = false ∧ (0x4177D78400000000#64).extractLsb' 52 11 ≠ 2047#11 ∧
      0x4177D78400000000#64 ≠ 0#64 ∧
      frequencyWord? 0x408F400000000000#64 0x4177D78400000000#64 = some 0x00029F1#28) ∧
    ((0x0000000000000001#64).getLsbD 63 = false ∧ (0x0000000000000001#64).extractLsb' 52 11 ≠ 2047#11 ∧
      0x0000000000000001#64 ≠ 0#64 ∧ frequencyWord? 0x408F400000000000#64 0x0000000000000001#64 = none) :=
  ⟨⟨by decide, by decide, by decide, booted_word⟩, by decide, by decide, by decide, by decide +kernel⟩

theorem witness_InitRefusesABadReferenceClock :
    (0xC177D78400000000#64).getLsbD 63 = true ∧ (0x7FF0000000000000#64).extractLsb' 52 11 = 2047#11 := by decide

theorem witness_RegisterWriteSendsOneFrame :
    (0x69F1#16 : RegWord) = 0x4000#16 ||| (0x29F1#14).setWidth 16 ∧
    (0x828F#16 : RegWord) = 0x8000#16 ||| (0x028F#14).setWidth 16 ∧
    (0xCFFF#16 : RegWord) = 0xC000#16 ||| (0xFFF#12).setWidth 16 ∧
    (0xE400#16 : RegWord) = 0xE000#16 ||| (0x400#12).setWidth 16 := by decide

theorem witness_FirstInitLeavesChannelOneUnwritten :
    ∃ t, exec (.init 0x4177D78400000000#64) State.reset = .next t := by
  refine ⟨State.reset.doInit 0x4177D78400000000#64, ?_⟩
  rw [exec, execInit, if_pos ((validReferenceClock_bits _).mpr ⟨by decide, by decide, by decide⟩)]

theorem witness_SetFreqOrderIsControlLowHigh : (booted []).inited = true ∧ CtlLegal (booted []) :=
  ⟨rfl, booted_legal⟩

/-- Also of EveryInstructionSendsAFixedNumberOfWords, ControlBitsHaveTheirWriters and
StateElementsHaveTheirWriters. -/
theorem witness_completion :
    exec .setModeTriangle (booted []) = .next triangular ∧ triangular.ctl.getLsbD 1 ≠ (booted []).ctl.getLsbD 1 ∧
    triangular.activeMode ≠ (booted []).activeMode := ⟨rfl, by decide, by decide⟩

theorem witness_EveryEmittedWordMatchesATableRow :
    isCommand .setModeTriangle = true ∧ CtlLegal (booted []) ∧ exec .setModeTriangle (booted []) = .next triangular :=
  ⟨rfl, booted_legal, rfl⟩

theorem witness_ControlOperationsSendOnlyControlWords :
    isControlOp .setModeTriangle = true ∧ CtlLegal (booted []) ∧
    exec .setModeTriangle (booted []) = .next triangular := ⟨rfl, booted_legal, rfl⟩

theorem witness_RepeatedCommandSendsTheSameWords :
    isCommand .setModeTriangle = true ∧ exec .setModeTriangle (booted []) = .next triangular ∧
    triangular.draws = (booted []).draws := ⟨rfl, rfl, rfl⟩

/-- A state with reset held and `DIV2` set. -/
def held : State := { booted [] with ctl := 0x2108#16 }

theorem witness_HeldResetAndDivTwoAreSticky :
    isCommand (.setAFreq .ch1) = true ∧ (∀ ref, Instr.setAFreq .ch1 ≠ .init ref) ∧
    (∃ t, exec (.setAFreq .ch1) held = .next t ∧ words t.tx = words held.tx ++ [0x2908#16]) ∧
    held.ctl.getLsbD 8 = true ∧ held.ctl.getLsbD 3 = true ∧
    Instr.setAFreq .ch1 ≠ .reset false ∧ Instr.setAFreq .ch1 ≠ .setModeSquareFull :=
  ⟨rfl, fun _ h => (by cases h), ⟨_, rfl, by decide⟩, by decide, by decide, by decide, by decide⟩

theorem witness_OperationsIgnoreTheOtherChannel :
    (∀ f, Instr.setPhase .ch0 900#16 ≠ .setFreq .ch1 f) ∧ (∀ x, Instr.setPhase .ch0 900#16 ≠ .setPhase .ch1 x) ∧
    (Chan.ch1 = .ch0 → ∀ ref, Instr.setPhase .ch0 900#16 ≠ .init ref) ∧
    ∃ t, exec (.setPhase .ch0 900#16) (booted []) = .next t :=
  ⟨fun _ h => (by cases h), fun _ h => (by cases h), fun h => (by cases h), ⟨_, rfl⟩⟩

/-- The premises of every step invariant hold together, and the step completes. -/
theorem witness_steps :
    step (booted [0x220000000000000000]) = .next triangular ∧ Idle (booted [0x220000000000000000]) ∧
    Framed (booted [0x220000000000000000]) ∧ CtlLegal (booted [0x220000000000000000]) ∧
    MirrorExact (booted [0x220000000000000000]) ∧ PictureAgrees (booted [0x220000000000000000]) ∧
    LifecycleOk (booted [0x220000000000000000]) ∧ PhaseCacheOk (booted [0x220000000000000000]) ∧
    ∀ c, FreqCacheOk (booted [0x220000000000000000]) c := ⟨booted_steps, booted_invariants⟩

theorem witness_CachedWordsStayTheWordsOfTheRequests :
    ((∀ ref, Instr.setModeTriangle ≠ .init ref) ∧ FreqCacheOk (booted []) .ch1 ∧
      exec .setModeTriangle (booted []) = .next triangular) ∧
    ((∀ ref, Instr.setFreq .ch1 0x408F400000000000#64 ≠ .init ref) ∧
      ∃ t, exec (.setFreq .ch1 0x408F400000000000#64) (booted []) = .next t) :=
  ⟨⟨fun _ h => (by cases h), fun h => (by cases h), rfl⟩, fun _ h => (by cases h),
    ⟨_, State.whenInited_of_inited (s := booted []) rfl ((booted []).doSetFreq .ch1 0x408F400000000000#64)⟩⟩

theorem witness_EveryLegalControlWordIsReached :
    LegalControl 0x2DC8#16 .off ∧ LegalControl 0x2000#16 .sine ∧ LegalControl 0x2D0A#16 .triangle ∧
    LegalControl 0x2028#16 .squareHalf ∧ LegalControl 0x2020#16 .squareFull := by
  refine ⟨?_, ?_, ?_, ?_, ?_⟩ <;> refine ⟨by decide, by decide, by decide, ?_, ?_⟩ <;> intro h <;> first | rfl | cases h

theorem witness_CommandIsItsRegisterWritesOneByOne :
    isCommand .setModeTriangle = true ∧ CtlLegal (booted []) ∧ Idle (booted []) ∧
    exec .setModeTriangle (booted []) = .next triangular := ⟨rfl, booted_legal, rfl, rfl⟩

/-! ### The codec -/

/-- The overflow bound itself, and the tie `2^53 + 1` between `2^53` and `2^53 + 2`. -/
theorem witness_RoundingIsNearestTiesToEven :
    ((0 : Nat) < (Frac.mk f64Overflow 1).den ∧
      (2 : ℚ) ^ (1024 : ℤ) - 2 ^ (970 : ℤ) ≤ |(Frac.mk f64Overflow 1).toRat|) ∧
    ((0 : Nat) < (Frac.mk (2 ^ 53 + 1) 1).den ∧
      |(Frac.mk (2 ^ 53 + 1) 1).toRat| < (2 : ℚ) ^ (1024 : ℤ) - 2 ^ (970 : ℤ) ∧
      rn64 (Frac.mk (2 ^ 53 + 1) 1) = .fin false (2 ^ 52) 1 ∧ (F64.fin false (2 ^ 52 + 1) 1).Representable ∧
      |(F64.fin false (2 ^ 52) 1).toRat - (Frac.mk (2 ^ 53 + 1) 1).toRat| =
        |(F64.fin false (2 ^ 52 + 1) 1).toRat - (Frac.mk (2 ^ 53 + 1) 1).toRat| ∧
      (F64.fin false (2 ^ 52 + 1) 1).toRat ≠ (F64.fin false (2 ^ 52) 1).toRat) := by
  refine ⟨⟨by decide, ?_⟩, by decide, ?_, by decide +kernel, ⟨by norm_num, by norm_num, by norm_num⟩, ?_, ?_⟩
  · rw [← f64Overflow_cast, Frac.toRat]
    simp only [Int.cast_natCast, Nat.cast_one, div_one]
    exact le_abs_self _
  · rw [← f64Overflow_cast]
    refine lt_trans ?_ maxFinite_lt_overflow
    have h : (2 : ℚ) ≤ 2 ^ (971 : ℤ) := by
      have := zpow_le_zpow_right₀ (by norm_num : (1 : ℚ) ≤ 2) (by norm_num : (1 : ℤ) ≤ 971)
      rwa [zpow_one] at this
    have e : |(Frac.mk (2 ^ 53 + 1) 1).toRat| = 2 ^ 53 + 1 := by simp only [Frac.toRat]; norm_num
    rw [e]
    generalize (2 : ℚ) ^ (971 : ℤ) = x at h
    linarith
  · simp only [Frac.toRat, F64.toRat]; norm_num
  · simp only [F64.toRat]; norm_num

theorem witness_ScalingIsExactAndTheSumIsFinite :
    (F64.fin false (2 ^ 53 - 1) 942).Representable ∧ (F64.fin true 0 0).Representable ∧
    (F64.fin true (2 ^ 53 - 1) 971).Representable := by
  refine ⟨⟨?_, ?_, ?_⟩, ⟨?_, ?_, ?_⟩, ⟨?_, ?_, ?_⟩⟩ <;> norm_num

/-- 2^28, 1.0, 0.5 and 1.5 as patterns. -/
theorem sample_values :
    bitsToRat 0x41B0000000000000#64 = 2 ^ 28 ∧ bitsToRat 0x3FF0000000000000#64 = 1 ∧
    bitsToRat 0x3FE0000000000000#64 = 1 / 2 ∧ bitsToRat 0x3FF8000000000000#64 = 3 / 2 := by
  have h1 : F64.ofBits 0x41B0000000000000#64 = .fin false (2 ^ 52) (-24) := by decide
  have h2 : F64.ofBits 0x3FF0000000000000#64 = .fin false (2 ^ 52) (-52) := by decide
  have h3 : F64.ofBits 0x3FE0000000000000#64 = .fin false (2 ^ 52) (-53) := by decide
  have h4 : F64.ofBits 0x3FF8000000000000#64 = .fin false (2 ^ 52 + 2 ^ 51) (-52) := by decide
  simp only [bitsToRat, h1, h2, h3, h4, F64.toRat]
  norm_num

theorem sample_clock : validReferenceClock 0x41B0000000000000#64 = true :=
  (validReferenceClock_bits _).mpr ⟨by decide, by decide, by decide⟩

theorem sample_ideal (f : Bits64) : idealFrequency f 0x41B0000000000000#64 = bitsToRat f := by
  rw [idealFrequency, sample_values.1, mul_div_assoc, div_self (by norm_num), mul_one]

theorem witness_FrequencyWordIsOpenOnlyWhenNotFinite : validReferenceClock 0x0000000000000001#64 = true :=
  (validReferenceClock_bits _).mpr ⟨by decide, by decide, by decide⟩

/-- A NaN, and 2^996 itself. -/
theorem witness_NonfiniteFrequencyIsDrawnAndSent :
    (booted []).inited = true ∧ (0x7FF8000000000000#64).extractLsb' 52 11 = 2047#11 ∧
    (2 : ℚ) ^ (996 : ℤ) ≤ |bitsToRat 0x7E30000000000000#64| := by
  refine ⟨rfl, by decide, ?_⟩
  have h : F64.ofBits 0x7E30000000000000#64 = .fin false (2 ^ 52) 944 := by decide
  rw [bitsToRat, h, F64.abs_toRat, Nat.cast_pow]
  exact (pow_two_mul 52 944).ge

theorem witness_FrequencyWordWrapsTheInteger :
    frequencyCount (F64.ofBits 0x4177D7C280000000#64) (F64.ofBits 0x4177D78400000000#64) = some 268446193 ∧
    frequencyCount (F64.ofBits 0xBFF0000000000000#64) (F64.ofBits 0x4177D78400000000#64) = some (-10) := by
  decide +kernel

theorem witness_RequestEqualToTheClockWrapsToZero :
    validReferenceClock 0x41B0000000000000#64 = true ∧ bitsToRat 0x41B0000000000000#64 < (2 : ℚ) ^ (996 : ℤ) := by
  refine ⟨sample_clock, ?_⟩
  rw [sample_values.1, ← zpow_natCast]
  exact zpow_lt_zpow_right₀ (by norm_num) (by norm_num)

/-- Just above -1.5, and 0. -/
theorem witness_SmallNegativeQuotientTruncatesToZero :
    ((F64.fin true (3 * 2 ^ 51 - 1) (-52)).Representable ∧
      -3 / 2 < (F64.fin true (3 * 2 ^ 51 - 1) (-52)).toRat ∧ (F64.fin true (3 * 2 ^ 51 - 1) (-52)).toRat ≤ 0) ∧
    ((F64.fin true 0 0).Representable ∧ -3 / 2 < (F64.fin true 0 0).toRat ∧ (F64.fin true 0 0).toRat ≤ 0) := by
  refine ⟨⟨⟨?_, ?_, ?_⟩, ?_, ?_⟩, ⟨?_, ?_, ?_⟩, ?_, ?_⟩ <;> first | (simp only [F64.toRat]; norm_num; done) | norm_num

/-- V-F19: a tie. -/
theorem witness_ExactTiesRoundUp :
    validReferenceClock 0x41B0000000000000#64 = true ∧
    frequencyCount (F64.ofBits 0x3FE0000000000000#64) (F64.ofBits 0x41B0000000000000#64) = some 1 ∧
    0 ≤ idealFrequency 0x3FE0000000000000#64 0x41B0000000000000#64 ∧
    idealFrequency 0x3FE0000000000000#64 0x41B0000000000000#64 < 2 ^ 52 ∧
    idealFrequency 0x3FE0000000000000#64 0x41B0000000000000#64 + 1 / 2 = ((1 : ℤ) : ℚ) := by
  refine ⟨sample_clock, by decide +kernel, ?_, ?_, ?_⟩ <;> rw [sample_ideal, sample_values.2.2.1] <;> norm_num

theorem witness_FrequencyCountIsWithinAHalfAndTheMargin :
    validReferenceClock 0x41B0000000000000#64 = true ∧
    frequencyCount (F64.ofBits 0x3FE0000000000000#64) (F64.ofBits 0x41B0000000000000#64) = some 1 ∧
    0 ≤ idealFrequency 0x3FE0000000000000#64 0x41B0000000000000#64 := by
  refine ⟨sample_clock, by decide +kernel, ?_⟩
  rw [sample_ideal, sample_values.2.2.1]
  norm_num

/-- `x = 1`: `x + 1/2` is half a unit from every integer. -/
theorem witness_FrequencyCountIsTheRealRounding :
    validReferenceClock 0x41B0000000000000#64 = true ∧
    frequencyCount (F64.ofBits 0x3FF0000000000000#64) (F64.ofBits 0x41B0000000000000#64) = some 1 ∧
    0 ≤ idealFrequency 0x3FF0000000000000#64 0x41B0000000000000#64 ∧
    ∀ k : ℤ, (idealFrequency 0x3FF0000000000000#64 0x41B0000000000000#64 + 1) * 2 ^ (-51 : ℤ) <
      |idealFrequency 0x3FF0000000000000#64 0x41B0000000000000#64 + 1 / 2 - k| := by
  refine ⟨sample_clock, by decide +kernel, ?_, fun k => ?_⟩ <;> rw [sample_ideal, sample_values.2.1]
  · norm_num
  · have e : ((1 : ℚ) + 1) * 2 ^ (-51 : ℤ) < 1 / 2 := by norm_num
    refine e.trans_le ?_
    rcases le_or_gt k 1 with h | h
    · have h' : (k : ℚ) ≤ 1 := by exact_mod_cast h
      rw [abs_of_nonneg (by linarith)]
      linarith
    · have h' : (2 : ℚ) ≤ k := by exact_mod_cast h
      rw [abs_of_nonpos (by linarith)]
      linarith

theorem witness_FrequencyCountIsMonotone :
    validReferenceClock 0x41B0000000000000#64 = true ∧
    frequencyCount (F64.ofBits 0x3FE0000000000000#64) (F64.ofBits 0x41B0000000000000#64) = some 1 ∧
    frequencyCount (F64.ofBits 0x3FF8000000000000#64) (F64.ofBits 0x41B0000000000000#64) = some 2 ∧
    bitsToRat 0x3FE0000000000000#64 ≤ bitsToRat 0x3FF8000000000000#64 := by
  refine ⟨sample_clock, by decide +kernel, by decide +kernel, ?_⟩
  rw [sample_values.2.2.1, sample_values.2.2.2]
  norm_num

theorem witness_PhaseWordRepeatsEveryTurn : (65535#16).toNat = (61935#16).toNat + 3600 := by decide

theorem witness_PhaseUnitsAreMonotone : (3599#16).toNat ≤ (3600#16).toNat := by decide

/-- The order of the document's formula: divide by ten, multiply by 512, divide by 45. -/
theorem witness_PhaseUnitsAgreeWithBinary64 :
    [fun v => fdiv v (.fin false 10 0), fun v => fmul (.fin false 512 0) v, fun v => fdiv v (.fin false 45 0)].Perm
      [fun v => fmul (.fin false 512 0) v, fun v => fdiv v (.fin false 10 0), fun v => fdiv v (.fin false 45 0)] :=
  List.Perm.swap _ _ _

/-- R55: the word with every reserved bit of a control word that leaves its destination set, against the one without. -/
theorem test_replay_ignores_reserved_bits :
    controlFields 0x3EFF#16 = controlFields 0x2CEA#16 ∧ controlFields 0x2DEA#16 ≠ controlFields 0x2CEA#16 ∧
    replay [0x2000#16, 0xF384#16] = replay [0x3215#16, 0xE384#16] := by decide

/-- Both clauses, at the boundary: all reserved bits set against none. -/
theorem witness_ReplayIgnoresTheReservedBits :
    (dest 0x3FFF#16 = dest 0x2DEA#16 ∧ dest 0x2DEA#16 = .control) ∧
    (dest 0xFFFF#16 = dest 0xEFFF#16 ∧ dest 0xEFFF#16 = .phase .ch1) := by decide

end Sys2Proof.Tests
end

section
/-! SUPPORT. `TX` grows by whole frames (spec/20_memory.md R33): what completes only appends the frames of some words,
and after whole frames chip-select is deasserted (spec/10_state.md R26). -/

namespace Sys2Proof.Machine

/-! ## Whole frames -/

/-- Each frame ends by deasserting chip-select, so any number of them does. -/
@[simp] theorem chipSelected_frames (ws : List RegWord) : chipSelected (frames ws) = false := by
  induction ws with
  | nil => rfl
  | cons w ws ih => exact ih

/-- The words are determined by the frames, so to be framed is to be the frames of any words at all. -/
theorem framed_iff_exists_frames (s : State) : Framed s ↔ ∃ ws, s.tx = frames ws := by
  constructor
  · exact fun h => ⟨words s.tx, h⟩
  · rintro ⟨ws, h⟩
    rw [Framed, h, words_frames]

theorem Framed.chipSelected_eq_false {s : State} (h : Framed s) : chipSelected s.tx = false := by
  rw [h, chipSelected_frames]

theorem Framed.of_tx_append_frames {s t : State} {ws : List RegWord} (h : Framed s)
    (ht : t.tx = s.tx ++ frames ws) : Framed t :=
  (framed_iff_exists_frames t).mpr ⟨words s.tx ++ ws, by rw [ht, h, words_frames, frames_append]⟩

/-! ## What completes appends whole frames -/

theorem exec_tx_append_frames {i : Instr} {s t : State} (h : exec i s = .next t) :
    ∃ ws, t.tx = s.tx ++ frames ws := by
  obtain ⟨-, -, rfl⟩ | ⟨c, f, -, -, rfl⟩ | ⟨c, x, -, -, rfl⟩ | ⟨ref, -, -, rfl⟩ | ⟨-, rfl⟩ := exec_next_cases h
  · exact ⟨_, rfl⟩
  · rw [State.doSetFreq_eq]; exact ⟨_, rfl⟩
  · rw [State.doSetPhase_eq]; exact ⟨_, rfl⟩
  · rw [State.doInit_eq]; exact ⟨_, rfl⟩
  · exact ⟨_, rfl⟩

/-- Fetching leaves `TX` alone, so a step appends what its instruction does, and an idle step nothing. -/
theorem step_tx_append_frames {s t : State} (h : step s = .next t) : ∃ ws, t.tx = s.tx ++ frames ws := by
  obtain ⟨-, -, rfl⟩ | ⟨w, ws, i, -, -, hx⟩ | ⟨c, cs, i, -, -, -, hx⟩ := step_next_cases h
  · exact ⟨[], by rw [frames_nil, List.append_nil]⟩
  · exact exec_tx_append_frames (s := { s with writes := ws }) hx
  · exact exec_tx_append_frames (s := { s with commands := cs }) hx

/-- Settles O33: a step appends whole frames to a `TX` of whole frames, and each frame deasserts chip-select. -/
theorem stepKeepsTxFramed : Obligations.StepKeepsTxFramed := by
  intro s t hs h
  obtain ⟨ws, ht⟩ := step_tx_append_frames h
  have hf : Framed t := hs.of_tx_append_frames ht
  exact ⟨hf, hf.chipSelected_eq_false⟩

end Sys2Proof.Machine
end

section
/-! SUPPORT. Data words from their payloads (spec/30_encoding.md R52 to R54): a tag occupies only bits above its payload,
so the payload reads back unchanged, and the two halves of a frequency word rebuild it. -/

namespace Sys2Proof

open Machine

/-! ## The tags are clear below the payload -/

theorem freqTag_payload (c : Chan) : (freqTag c).extractLsb' 0 14 = 0#14 := by cases c <;> rfl

theorem phaseTag_payload (c : Chan) : (phaseTag c).extractLsb' 0 12 = 0#12 := by cases c <;> rfl

theorem phaseTag_bit12 (c : Chan) : (phaseTag c).getLsbD 12 = false := by cases c <;> rfl

/-! ## The payloads read back -/

theorem extractLsb'_tag_or_payload {n : Nat} {tag : RegWord} (hn : n ≤ 16) (ht : tag.extractLsb' 0 n = 0#n)
    (x : BitVec n) : (tag ||| x.setWidth 16).extractLsb' 0 n = x := by
  rw [BitVec.extractLsb'_or, ht, BitVec.zero_or, BitVec.extractLsb'_setWidth_of_le (by omega),
    BitVec.extractLsb'_eq_self]

/-- The 14 bits the decoder and the picture read from a frequency data word (R52). -/
@[simp] theorem freqDataWord_payload (c : Chan) (h : FreqHalf) : (freqDataWord c h).extractLsb' 0 14 = h :=
  extractLsb'_tag_or_payload (by decide) (freqTag_payload c) h

/-- The 12 bits the decoder and the picture read from a phase data word (R53). -/
@[simp] theorem phaseDataWord_payload (c : Chan) (p : PhaseWord) : (phaseDataWord c p).extractLsb' 0 12 = p :=
  extractLsb'_tag_or_payload (by decide) (phaseTag_payload c) p

/-- Bit 12 lies between the phase word and its tag, and neither sets it. -/
@[simp] theorem phaseDataWord_bit12 (c : Chan) (p : PhaseWord) : (phaseDataWord c p).getLsbD 12 = false := by
  have hp : (p.setWidth 16).getLsbD 12 = false := by
    rw [BitVec.getLsbD_setWidth, BitVec.getLsbD_of_ge p 12 (le_refl 12), Bool.and_false]
  rw [phaseDataWord, BitVec.getLsbD_or, phaseTag_bit12, hp, Bool.or_false]

/-! ## The halves rebuild the frequency word -/

/-- R54 as the spec writes it; concatenation is this shift and or. -/
theorem hi14_shiftLeft_or_lo14 (fw : FreqWord) :
    ((hi14 fw).setWidth 28 <<< 14) ||| (lo14 fw).setWidth 28 = fw := by
  rw [← BitVec.setWidth_append_eq_shiftLeft_setWidth_or, BitVec.setWidth_eq, hi14_append_lo14]

/-- Settles O11: destination and payload of each data word, and the frequency word from its halves. -/
theorem dataWordsCarryTagAndPayload : Obligations.DataWordsCarryTagAndPayload :=
  ⟨fun c h => ⟨dest_freqDataWord c h, freqDataWord_payload c h⟩,
    fun c p => ⟨dest_phaseDataWord c p, phaseDataWord_payload c p, phaseDataWord_bit12 c p⟩,
    hi14_shiftLeft_or_lo14⟩

end Sys2Proof
end

section
/-! SUPPORT. The control-register operations on an initialised state (spec/41_control_ops.md R101 to R106): each puts a
new value of `CTL` and sends it, so the whole next state follows from the rule for `putCtl`. -/

namespace Sys2Proof.Machine

variable {s : State}

/-! ## RESET -/

/-- `RESET 1`: one put, of `CTL` with the reset bit set. -/
theorem State.doReset_true_eq (s : State) :
    s.doReset true = { s with ctl := s.ctl ||| 0x0100#16, tx := s.tx ++ frames [s.ctl ||| 0x0100#16] } := by
  rw [State.doReset_true, State.putCtl_eq, setBits, resetBit]

/-- `RESET 0`: the second put clears the bit that the first one set, so `CTL` loses the bit and keeps every other. -/
theorem State.doReset_false_eq (s : State) :
    s.doReset false =
      { s with
        ctl := s.ctl &&& ~~~0x0100#16
        tx := s.tx ++ frames [s.ctl ||| 0x0100#16, s.ctl &&& ~~~0x0100#16] } := by
  have hbit : clearBits resetBit (setBits resetBit s.ctl) = s.ctl &&& ~~~0x0100#16 := clear_set_reset s.ctl
  rw [State.doReset_false, hbit, State.putCtl_eq, State.putCtl_eq, List.append_assoc, ← frames_append, setBits, resetBit,
    List.singleton_append]

theorem exec_reset_of_inited (h : s.inited = true) (hold : Bool) : exec (.reset hold) s = .next (s.doReset hold) :=
  State.whenInited_of_inited h _

/-- Settles O12: `RESET 1` sets bit 8 and sends once, `RESET 0` sets it, sends, clears it and sends again. -/
theorem resetCommandPulsesTheResetBit : Obligations.ResetCommandPulsesTheResetBit := by
  intro s h
  constructor
  · rw [exec_reset_of_inited h, State.doReset_true_eq]
  · rw [exec_reset_of_inited h, State.doReset_false_eq]

/-! ## SETMODE -/

/-- SETMODE after its precondition, for every mode: `CTL` by its row, the mode recorded, `CTL` sent once (R102). -/
theorem State.doSetMode_eq (s : State) (m : Mode) :
    s.doSetMode m =
      { s with ctl := modeBits m s.ctl, activeMode := m, tx := s.tx ++ frames [modeBits m s.ctl] } := by
  rw [State.doSetMode, State.putCtl_eq]

/-- What every SETMODE answers, its `exec` being `whenInited` of `doSetMode`. -/
theorem State.whenInited_doSetMode (h : s.inited = true) (m : Mode) :
    s.whenInited (s.doSetMode m) =
      .next { s with ctl := modeBits m s.ctl, activeMode := m, tx := s.tx ++ frames [modeBits m s.ctl] } := by
  rw [State.whenInited_of_inited h, State.doSetMode_eq]

/-- Settles O13: the shape common to the modes, with the row of the mode table in place of `modeBits`. -/
theorem setModeFollowsTheModeTable : Obligations.SetModeFollowsTheModeTable := by
  intro s h
  refine ⟨?off, ?sine, ?triangle, ?squareHalf⟩
  case off => exact State.whenInited_doSetMode h .off
  case sine => exact State.whenInited_doSetMode h .sine
  case triangle => exact State.whenInited_doSetMode h .triangle
  case squareHalf => exact State.whenInited_doSetMode h .squareHalf

end Sys2Proof.Machine
end

section
/-! SUPPORT. SETFREQ and SETPHASE on an initialised state (spec/42_data_ops.md R120 to R123): the words each sends, the
values each leaves, and that exchanging the channels changes only the tags of those words. -/

namespace Sys2Proof.Machine

variable {s : State}

/-! ## SETFREQ: what it leaves and what it sends -/

theorem exec_setFreq_of_inited (h : s.inited = true) (c : Chan) (f : Bits64) :
    exec (.setFreq c f) s = .next (s.doSetFreq c f) :=
  State.whenInited_of_inited h _

@[simp] theorem State.doSetFreq_ctl (s : State) (c : Chan) (f : Bits64) :
    (s.doSetFreq c f).ctl = setBits b28Bit s.ctl := by
  rw [State.doSetFreq_eq]

@[simp] theorem State.chan_doSetFreq_freqw (s : State) (c : Chan) (f : Bits64) :
    ((s.doSetFreq c f).chan c).freqw = s.frequencyWord f := by
  cases c <;> rw [State.doSetFreq_eq] <;> rfl

@[simp] theorem State.words_doSetFreq (s : State) (c : Chan) (f : Bits64) :
    words (s.doSetFreq c f).tx = words s.tx ++ [setBits b28Bit s.ctl, freqDataWord c (lo14 (s.frequencyWord f)),
      freqDataWord c (hi14 (s.frequencyWord f))] := by
  rw [State.doSetFreq_eq, words_append, words_frames]

/-! ## The control word SETFREQ sends -/

theorem setBits_b28_bit13 (w : RegWord) : (setBits b28Bit w).getLsbD 13 = true := by
  have hb : b28Bit.getLsbD 13 = true := by decide
  rw [setBits, BitVec.getLsbD_or, hb, Bool.or_true]

/-- The mask of the bits that are 0 in a reachable `CTL` (R13) covers both tag bits. -/
theorem LegalControl.extractLsb'_tag {w : RegWord} {m : Mode} (h : LegalControl w m) : w.extractLsb' 14 2 = 0#2 := by
  obtain ⟨hzero, -, -, -, -⟩ := h
  have hmask : (0xD215#16).extractLsb' 14 2 = BitVec.allOnes 2 := by decide
  calc w.extractLsb' 14 2 = (w &&& 0xD215#16).extractLsb' 14 2 := by
        rw [BitVec.extractLsb'_and, hmask, BitVec.and_allOnes]
    _ = 0#2 := by rw [hzero]; rfl

/-- Bit 13 lies below the tag, so forcing it leaves a control word a control word. -/
theorem LegalControl.dest_setBits_b28 {w : RegWord} {m : Mode} (h : LegalControl w m) :
    dest (setBits b28Bit w) = .control := by
  have hb : b28Bit.extractLsb' 14 2 = 0#2 := by decide
  apply dest_of_tag
  rw [setBits, BitVec.extractLsb'_or, h.extractLsb'_tag, hb, BitVec.or_zero]

/-- Settles O22: the words are those of `words_doSetFreq`; a legal mirror makes the first a control word, and the halves
rebuild the stored word. -/
theorem setFreqOrderIsControlLowHigh : Obligations.SetFreqOrderIsControlLowHigh := by
  intro c f s hinit hlegal
  refine ⟨s.doSetFreq c f, setBits b28Bit s.ctl, freqDataWord c (lo14 (s.frequencyWord f)),
    freqDataWord c (hi14 (s.frequencyWord f)), exec_setFreq_of_inited hinit c f, s.words_doSetFreq c f,
    (hlegal hinit).dest_setBits_b28, setBits_b28_bit13 s.ctl, (s.doSetFreq_ctl c f).symm, dest_freqDataWord c _,
    dest_freqDataWord c _, ?halves⟩
  case halves =>
    rw [freqDataWord_payload, freqDataWord_payload, hi14_append_lo14, State.chan_doSetFreq_freqw]

/-! ## SETPHASE: what it leaves and what it sends -/

theorem exec_setPhase_of_inited (h : s.inited = true) (c : Chan) (x : Tenths) :
    exec (.setPhase c x) s = .next (s.doSetPhase c x) :=
  State.whenInited_of_inited h _

@[simp] theorem State.words_doSetPhase (s : State) (c : Chan) (x : Tenths) :
    words (s.doSetPhase c x).tx = words s.tx ++ [phaseDataWord c (phaseWord x)] := by
  rw [State.doSetPhase_eq, words_append, words_frames]

theorem phaseDataWord_ch0_bit13 (p : PhaseWord) : (phaseDataWord .ch0 p).getLsbD 13 = false := by
  have ht : (phaseTag .ch0).getLsbD 13 = false := by decide
  have hp : (p.setWidth 16).getLsbD 13 = false := by
    rw [BitVec.getLsbD_setWidth, BitVec.getLsbD_of_ge p 13 (by decide), Bool.and_false]
  rw [phaseDataWord, BitVec.getLsbD_or, ht, hp, Bool.or_false]

/-- The phase tags of the two channels differ in bit 13 alone (R53). -/
theorem phaseDataWord_ch1 (p : PhaseWord) : phaseDataWord .ch1 p = phaseDataWord .ch0 p ||| 0x2000#16 := by
  have ht : phaseTag .ch1 = phaseTag .ch0 ||| 0x2000#16 := by decide
  rw [phaseDataWord, phaseDataWord, ht, BitVec.or_assoc, BitVec.or_comm (0x2000#16), ← BitVec.or_assoc]

/-! ## Exchanging the channels (R123) -/

@[simp] theorem State.swapChannels_inited (s : State) : s.swapChannels.inited = s.inited := rfl
@[simp] theorem State.swapChannels_ctl (s : State) : s.swapChannels.ctl = s.ctl := rfl
@[simp] theorem State.swapChannels_tx (s : State) : s.swapChannels.tx = s.tx := rfl
@[simp] theorem State.swapChannels_chan_ch1 (s : State) : s.swapChannels.chan .ch1 = s.chan .ch0 := rfl

/-- The frequency word depends on the clock and the draws, not on what the channels hold. -/
@[simp] theorem State.swapChannels_frequencyWord (s : State) (f : Bits64) :
    s.swapChannels.frequencyWord f = s.frequencyWord f := rfl

@[simp] theorem State.swapChannels_drawsAfter (s : State) (f : Bits64) :
    s.swapChannels.drawsAfter f = s.drawsAfter f := rfl

theorem State.setChan_ch1_swapChannels (s : State) (v : Channel) :
    s.swapChannels.setChan .ch1 v = (s.setChan .ch0 v).swapChannels := rfl

/-- SETFREQ commutes with exchanging the channels, up to the words sent. -/
theorem State.doSetFreq_ch1_swapChannels (s : State) (f : Bits64) :
    { s.swapChannels.doSetFreq .ch1 f with tx := (s.doSetFreq .ch0 f).tx } =
      (s.doSetFreq .ch0 f).swapChannels := by
  rw [State.doSetFreq_eq, State.doSetFreq_eq, State.swapChannels_frequencyWord, State.swapChannels_drawsAfter,
    State.swapChannels_chan_ch1, State.setChan_ch1_swapChannels]
  rfl

/-- SETPHASE commutes with exchanging the channels, up to the word sent. -/
theorem State.doSetPhase_ch1_swapChannels (s : State) (x : Tenths) :
    { s.swapChannels.doSetPhase .ch1 x with tx := (s.doSetPhase .ch0 x).tx } =
      (s.doSetPhase .ch0 x).swapChannels := by
  rw [State.doSetPhase_eq, State.doSetPhase_eq, State.swapChannels_chan_ch1, State.setChan_ch1_swapChannels]
  rfl

/-- Settles O31: both operations commute with the exchange up to the words, and the words differ in their tags. -/
theorem channelOneIsChannelZeroButForTheTag : Obligations.ChannelOneIsChannelZeroButForTheTag := by
  intro s hinit
  have hswap : s.swapChannels.inited = true := s.swapChannels_inited.trans hinit
  constructor
  · intro f
    refine ⟨s.doSetFreq .ch0 f, s.swapChannels.doSetFreq .ch1 f, setBits b28Bit s.ctl, lo14 (s.frequencyWord f),
      hi14 (s.frequencyWord f), exec_setFreq_of_inited hinit .ch0 f, exec_setFreq_of_inited hswap .ch1 f,
      s.words_doSetFreq .ch0 f, ?words, s.doSetFreq_ch1_swapChannels f⟩
    case words =>
      rw [State.words_doSetFreq, State.swapChannels_tx, State.swapChannels_ctl, State.swapChannels_frequencyWord]
      rfl
  · intro x
    refine ⟨s.doSetPhase .ch0 x, s.swapChannels.doSetPhase .ch1 x, phaseDataWord .ch0 (phaseWord x),
      exec_setPhase_of_inited hinit .ch0 x, exec_setPhase_of_inited hswap .ch1 x, phaseDataWord_ch0_bit13 _,
      s.words_doSetPhase .ch0 x, ?words, s.doSetPhase_ch1_swapChannels x⟩
    case words => rw [State.words_doSetPhase, State.swapChannels_tx, phaseDataWord_ch1]

end Sys2Proof.Machine
end

section
/-! SUPPORT. The decoder and the encoder are inverse (spec/30_encoding.md R50 to R53, R57 to R62): both directions of
the round trip, and the mask and match rows as the words of the encoder. -/

namespace Sys2Proof

open Machine

/-! ## The encoding of a well-formed instruction decodes to it -/

@[simp] theorem oneBitArg_commandWord (o : BitVec 4) (b : Bool) (im : Bits64) (immOk : Bool) (build : Bool → Instr) :
    oneBitArg (commandWord o (bitArg b) im) immOk build =
      if immOk then .ok (build b) else .error .reservedImm := by
  simp only [oneBitArg, argField_commandWord, bitArg_mask, bitArg_bit, ne_eq, not_true_eq_false, if_false]

/-- The 16-bit operand of SETPHASE leaves the reserved bits of `imm` clear and reads back (R64). -/
theorem setWidth_tenths (t : Tenths) :
    (t.setWidth 64).extractLsb' 16 48 = 0#48 ∧ (t.setWidth 64).extractLsb' 0 16 = t := by
  constructor
  · apply BitVec.eq_of_getLsbD_eq
    intro j hj
    rw [BitVec.getLsbD_extractLsb', BitVec.getLsbD_setWidth, BitVec.getLsbD_of_ge t _ (by omega), Bool.and_false,
      Bool.and_false, BitVec.getLsbD_zero]
  · rw [BitVec.extractLsb'_setWidth_of_le (by omega), BitVec.extractLsb'_eq_self]

/-- The two tag bits of a register word, one by one (R50). -/
theorem tag_bits (w : RegWord) (t : BitVec 2) :
    w.extractLsb' 14 2 = t ↔ w.getLsbD 14 = t.getLsbD 0 ∧ w.getLsbD 15 = t.getLsbD 1 := by
  constructor
  · rintro rfl
    simp
  · rintro ⟨h0, h1⟩
    apply BitVec.eq_of_getLsbD_eq
    intro j hj
    rw [BitVec.getLsbD_extractLsb', decide_eq_true hj, Bool.true_and]
    interval_cases j
    · exact h0
    · exact h1

/-- The payload lies below the tag bits, so they are those of the tag. -/
theorem freqDataWord_tag (c : Chan) (h : FreqHalf) :
    (freqDataWord c h).extractLsb' 14 2 = (freqTag c).extractLsb' 14 2 := by
  rw [tag_bits]
  cases c <;> simp [freqDataWord, freqTag]

theorem phaseDataWord_tag (c : Chan) (p : PhaseWord) : (phaseDataWord c p).extractLsb' 14 2 = 3#2 := by
  rw [tag_bits]
  cases c <;> simp [phaseDataWord, phaseTag]

/-- Bit 13 of a phase data word names the channel (R53). -/
theorem phaseDataWord_bit13 (c : Chan) (p : PhaseWord) : (phaseDataWord c p).getLsbD 13 = c.bit := by
  cases c <;> simp [phaseDataWord, phaseTag, Chan.bit]

theorem decodeWrite_freqDataWord (c : Chan) (h : FreqHalf) :
    decodeWrite (freqDataWord c h) = .ok (if c = .ch0 then .freq0Write h else .freq1Write h) := by
  rw [decodeWrite, freqDataWord_tag, freqDataWord_payload]
  cases c <;> rfl

theorem decodeWrite_phaseDataWord (c : Chan) (p : PhaseWord) :
    decodeWrite (phaseDataWord c p) = .ok (if c = .ch0 then .phase0Write p else .phase1Write p) := by
  rw [decodeWrite, phaseDataWord_tag, phaseDataWord_bit12, phaseDataWord_bit13, phaseDataWord_payload]
  cases c <;> rfl

/-- The four checks on a control word together are its row of the opcode table (R51). -/
theorem wellFormed_ctrlWrite_iff (w : RegWord) : (Instr.ctrlWrite w).WellFormed ↔ w &&& 0xF215#16 = 0x2000#16 := by
  simp [Instr.WellFormed, Instr.wellFormed, controlTagOk, controlWideOk, controlHlbOk, controlUnnamedOk, mask_bits]
  tauto

theorem decodeWrite_ctrlWrite {w : RegWord} (h : w &&& 0xF215#16 = 0x2000#16) : decodeWrite w = .ok (.ctrlWrite w) := by
  have htag : w.extractLsb' 14 2 = 0#2 := by
    simp [mask_bits] at h
    simp [tag_bits, h]
  rw [decodeWrite, if_pos htag, if_pos h]

/-- Settles O6: the fields of an encoded command read back, and so do the tag and the payload of a register word. -/
theorem decodeOfEncodeIsTheInstruction : Obligations.DecodeOfEncodeIsTheInstruction := by
  intro i hi
  cases i with
  | init ref => simp [encode, decode, decodeCommand]
  | reset hold => simp [encode, decode, decodeCommand]
  | setModeOff => rfl
  | setModeSine => rfl
  | setModeTriangle => rfl
  | setModeSquareHalf => rfl
  | setModeSquareFull => rfl
  | setAFreq c => simp [encode, decode, decodeCommand]
  | setAPhase c => simp [encode, decode, decodeCommand]
  | setFreq c f => simp [encode, decode, decodeCommand]
  | setPhase c t => simp [encode, decode, decodeCommand, setWidth_tenths]
  | ctrlWrite w => exact decodeWrite_ctrlWrite ((wellFormed_ctrlWrite_iff w).mp hi)
  | freq0Write h => exact decodeWrite_freqDataWord .ch0 h
  | freq1Write h => exact decodeWrite_freqDataWord .ch1 h
  | phase0Write p => exact decodeWrite_phaseDataWord .ch0 p
  | phase1Write p => exact decodeWrite_phaseDataWord .ch1 p

/-! ## A word that decodes is the encoding of what it decodes to -/

/-- What a one-bit `arg` that is accepted says of the command word. -/
theorem oneBitArg_ok {o a : BitVec 4} {im : Bits64} {immOk : Bool} {build : Bool → Instr} {i : Instr}
    (h : oneBitArg (commandWord o a im) immOk build = .ok i) : immOk = true ∧ ∃ b, a = bitArg b ∧ i = build b := by
  simp only [oneBitArg, argField_commandWord] at h
  split at h
  · cases h
  · rename_i ha
    split at h
    · rename_i him
      cases h
      exact ⟨him, _, (bitArg_of_mask (not_not.mp ha)).symm, rfl⟩
    · cases h

theorem setModeOfCode_ok {a : BitVec 4} {i : Instr} (h : setModeOfCode a = .ok i) :
    i.WellFormed ∧ encode i = .command (commandWord 2#4 a 0#64) := by
  unfold setModeOfCode at h
  split_ifs at h <;> cases h <;> subst a <;> exact ⟨rfl, rfl⟩

/-- An `imm` whose upper 48 bits are clear is its lower 16 bits. -/
theorem setWidth_of_upper_zero {im : Bits64} (h : im.extractLsb' 16 48 = 0#48) :
    (im.extractLsb' 0 16).setWidth 64 = im := by
  apply BitVec.eq_of_getLsbD_eq
  intro j hj
  by_cases h16 : j < 16
  · simp [h16, hj]
  · have hb : (im.extractLsb' 16 48).getLsbD (j - 16) = im.getLsbD j := by
      rw [BitVec.getLsbD_extractLsb', show 16 + (j - 16) = j by omega, decide_eq_true (by omega), Bool.true_and]
    rw [← hb, h]
    simp [BitVec.getLsbD_setWidth, BitVec.getLsbD_extractLsb', h16]

theorem encode_of_decodeCommand {c : Command} {i : Instr} (h : decodeCommand c = .ok i) :
    i.WellFormed ∧ encode i = .command c := by
  rw [← commandWord_fields c] at h ⊢
  generalize opField c = o, argField c = a, immField c = im at h ⊢
  simp only [decodeCommand, opField_commandWord, argField_commandWord, immField_commandWord] at h
  split_ifs at h with h0 ha h1 h2 h3 h4 h5 h6 h7 h8
  · cases h; exact ⟨rfl, by rw [h0, ha]; rfl⟩
  · obtain ⟨him, b, rfl, rfl⟩ := oneBitArg_ok h
    exact ⟨rfl, by rw [beq_iff_eq.mp him, h1]; rfl⟩
  · rw [h2, h4]; exact setModeOfCode_ok h
  · obtain ⟨him, b, rfl, rfl⟩ := oneBitArg_ok h
    exact ⟨rfl, by rw [beq_iff_eq.mp him, h5, encode, bit_chanOfBit]⟩
  · obtain ⟨him, b, rfl, rfl⟩ := oneBitArg_ok h
    exact ⟨rfl, by rw [beq_iff_eq.mp him, h6, encode, bit_chanOfBit]⟩
  · obtain ⟨-, b, rfl, rfl⟩ := oneBitArg_ok h
    exact ⟨rfl, by rw [h7, encode, bit_chanOfBit]⟩
  · obtain ⟨him, b, rfl, rfl⟩ := oneBitArg_ok h
    exact ⟨rfl, by rw [h8, encode, bit_chanOfBit, setWidth_of_upper_zero (beq_iff_eq.mp him)]⟩

/-- A register word under a frequency tag is that tag and its 14 bits (R52). -/
theorem freqDataWord_of_bits {w : RegWord} (c : Chan) (h14 : w.getLsbD 14 = !c.bit) (h15 : w.getLsbD 15 = c.bit) :
    freqDataWord c (w.extractLsb' 0 14) = w := by
  apply BitVec.eq_of_getLsbD_eq
  intro j hj
  cases c <;> interval_cases j <;> simp_all [freqDataWord, freqTag, Chan.bit]

/-- A register word under a phase tag with bit 12 clear is that tag and its 12 bits (R53). -/
theorem phaseDataWord_of_bits {w : RegWord} (c : Chan) (h12 : w.getLsbD 12 = false) (h13 : w.getLsbD 13 = c.bit)
    (h14 : w.getLsbD 14 = true) (h15 : w.getLsbD 15 = true) : phaseDataWord c (w.extractLsb' 0 12) = w := by
  apply BitVec.eq_of_getLsbD_eq
  intro j hj
  cases c <;> interval_cases j <;> simp_all [phaseDataWord, phaseTag, Chan.bit]

theorem encode_of_decodeWrite {w : RegWord} {i : Instr} (h : decodeWrite w = .ok i) :
    i.WellFormed ∧ encode i = .write w := by
  simp only [decodeWrite, tag_bits] at h
  split_ifs at h with h0 hc h1 h2 h12 h13 <;> cases h
  · exact ⟨(wellFormed_ctrlWrite_iff w).mpr hc, rfl⟩
  · exact ⟨rfl, congrArg _ (freqDataWord_of_bits .ch0 h1.1 h1.2)⟩
  · exact ⟨rfl, congrArg _ (freqDataWord_of_bits .ch1 h2.1 h2.2)⟩
  all_goals
    have htag : w.getLsbD 14 = true ∧ w.getLsbD 15 = true := by
      cases h14 : w.getLsbD 14 <;> cases h15 : w.getLsbD 15 <;> simp_all
    simp only [Bool.not_eq_true] at h12 h13
  · exact ⟨rfl, congrArg _ (phaseDataWord_of_bits .ch1 h12 h13 htag.1 htag.2)⟩
  · exact ⟨rfl, congrArg _ (phaseDataWord_of_bits .ch0 h12 h13 htag.1 htag.2)⟩

/-- Settles O7: by the branches of the two decoders. -/
theorem encodeOfDecodeIsTheWord : Obligations.EncodeOfDecodeIsTheWord := by
  intro cw i h
  cases cw with
  | command c => exact encode_of_decodeCommand h
  | write w => exact encode_of_decodeWrite h

/-! ## Decoding as an equation of the encoder -/

theorem decodeCommand_eq_ok_iff {c : Command} {i : Instr} :
    decodeCommand c = .ok i ↔ i.WellFormed ∧ encode i = .command c := by
  refine ⟨encode_of_decodeCommand, fun ⟨hwf, he⟩ => ?_⟩
  rw [← decodeOfEncodeIsTheInstruction i hwf, he]
  rfl

theorem decodeWrite_eq_ok_iff {w : RegWord} {i : Instr} :
    decodeWrite w = .ok i ↔ i.WellFormed ∧ encode i = .write w := by
  refine ⟨encode_of_decodeWrite, fun ⟨hwf, he⟩ => ?_⟩
  rw [← decodeOfEncodeIsTheInstruction i hwf, he]
  rfl

end Sys2Proof
end

section
/-! SUPPORT. The mask and match rows decide the decoders (spec/30_encoding.md R51 to R53, R59): a row holds of a word
exactly when the word is the encoding of the row's instruction, and a word that decodes has a row. -/

namespace Sys2Proof

open Machine

/-! ## Every instruction has its row -/

theorem encode_row (i : Instr) : Laws.TableRow.Statement i := by
  cases i with
  | init ref => exact Laws.TableRow.init ref
  | reset hold => exact Laws.TableRow.reset hold
  | setModeOff => exact Laws.TableRow.setModeOff
  | setModeSine => exact Laws.TableRow.setModeSine
  | setModeTriangle => exact Laws.TableRow.setModeTriangle
  | setModeSquareHalf => exact Laws.TableRow.setModeSquareHalf
  | setModeSquareFull => exact Laws.TableRow.setModeSquareFull
  | setAFreq c => exact Laws.TableRow.setAFreq c
  | setAPhase c => exact Laws.TableRow.setAPhase c
  | setFreq c f => exact Laws.TableRow.setFreq c f
  | setPhase c t => exact Laws.TableRow.setPhase c t
  | ctrlWrite w => exact Laws.TableRow.ctrlWrite w
  | freq0Write h => exact Laws.TableRow.freq0Write h
  | freq1Write h => exact Laws.TableRow.freq1Write h
  | phase0Write p => exact Laws.TableRow.phase0Write p
  | phase1Write p => exact Laws.TableRow.phase1Write p

theorem commandRow_of_decodeCommand {c : Command} {i : Instr} (h : decodeCommand c = .ok i) :
    ∃ row ∈ commandRows, c &&& row.1 = row.2 := by
  obtain ⟨hwf, he⟩ := encode_of_decodeCommand h
  have hrow := encode_row i hwf
  rwa [he] at hrow

theorem writeRow_of_decodeWrite {w : RegWord} {i : Instr} (h : decodeWrite w = .ok i) :
    ∃ row ∈ writeRows, w &&& row.1 = row.2 := by
  obtain ⟨hwf, he⟩ := encode_of_decodeWrite h
  have hrow := encode_row i hwf
  rwa [he] at hrow

/-! ## The command rows -/

theorem commandWord_inj {o o' a a' : BitVec 4} {im im' : Bits64} :
    commandWord o a im = commandWord o' a' im' ↔ o = o' ∧ a = a' ∧ im = im' := by
  constructor
  · intro h
    refine ⟨?_, ?_, ?_⟩
    · rw [← opField_commandWord o a im, h, opField_commandWord]
    · rw [← argField_commandWord o a im, h, argField_commandWord]
    · rw [← immField_commandWord o a im, h, immField_commandWord]
  · rintro ⟨rfl, rfl, rfl⟩
    rfl

/-- The fields of a command word with given values, as one equation. -/
theorem eq_commandWord_iff (c : Command) (o a : BitVec 4) (im : Bits64) :
    commandWord o a im = c ↔ opField c = o ∧ argField c = a ∧ immField c = im := by
  rw [← commandWord_fields c, commandWord_inj]
  simp only [opField_commandWord, argField_commandWord, immField_commandWord, eq_comm]

theorem decodeCommand_eq_ok_iff_fields {c : Command} {i : Instr} {o a : BitVec 4} {im : Bits64} (hwf : i.WellFormed)
    (he : encode i = .command (commandWord o a im)) :
    decodeCommand c = .ok i ↔ opField c = o ∧ argField c = a ∧ immField c = im := by
  rw [decodeCommand_eq_ok_iff, he, CodeWord.command.injEq, eq_commandWord_iff, and_iff_right hwf]

/-- A field whose mask is all ones is fixed by its row. -/
theorem and_allOnes_eq_iff {n : Nat} (x v : BitVec n) : x &&& BitVec.allOnes n = v ↔ x = v := by
  rw [BitVec.and_allOnes]

/-- A field whose mask is zero is free in its row. -/
theorem and_zero_eq_iff {n : Nat} (x : BitVec n) : x &&& 0#n = 0#n ↔ x = x := by
  rw [BitVec.and_zero, eq_self, eq_self]

/-- The shape 000`b` of `arg`: the mask of its three high bits against the encoder's `arg` (R58). -/
theorem argField_mask_iff (c : Command) (b : Bool) (hb : b = c.getLsbD 64) :
    argField c &&& 0xE#4 = 0#4 ↔ argField c = bitArg b := by
  have hbit : b = (argField c).getLsbD 0 := by rw [hb]; simp [argField]
  rw [hbit]
  exact ⟨fun h => (bitArg_of_mask h).symm, fun h => by rw [h]; exact bitArg_mask _⟩

/-- The `chan` of the rows is the channel whose one-bit form is bit 64 (R60). -/
theorem chan_bit (b : Bool) : Chan.bit (if b then .ch1 else .ch0) = b := by cases b <;> rfl

/-- The mask of the upper 48 bits of `imm` against the encoder's `imm` (R58, SETPHASE). -/
theorem immField_mask_iff (c : Command) :
    immField c &&& 0xFFFFFFFFFFFF0000#64 = 0#64 ↔ immField c = (c.extractLsb' 0 16).setWidth 64 := by
  have hlow : c.extractLsb' 0 16 = (immField c).extractLsb' 0 16 := by
    apply BitVec.eq_of_getLsbD_eq
    intro j hj
    simp only [immField, BitVec.getLsbD_extractLsb', hj, decide_true, Bool.true_and, Nat.zero_add,
      show j < 64 by omega]
  have hmask : (0xFFFFFFFFFFFF0000#64).extractLsb' 16 48 = BitVec.allOnes 48 := by decide
  rw [hlow]
  constructor
  · intro h
    refine (setWidth_of_upper_zero ?_).symm
    calc (immField c).extractLsb' 16 48
        = (immField c &&& 0xFFFFFFFFFFFF0000#64).extractLsb' 16 48 := by
          rw [BitVec.extractLsb'_and, hmask, BitVec.and_allOnes]
      _ = 0#48 := by rw [h]; rfl
  · intro h
    have hmask16 : ∀ j < 16, (0xFFFFFFFFFFFF0000#64).getLsbD j = false := by decide
    apply BitVec.eq_of_getLsbD_eq
    intro j hj
    rw [BitVec.getLsbD_and, BitVec.getLsbD_zero]
    by_cases hj16 : j < 16
    · rw [hmask16 j hj16, Bool.and_false]
    · rw [h, BitVec.getLsbD_setWidth, BitVec.getLsbD_of_ge _ j (by omega), Bool.and_false, Bool.false_and]

/-- A row of R59, field by field: `op` is fixed, `arg` and `imm` are as the encoder writes them. -/
theorem row_iff_decodeCommand {c m v : Command} {i : Instr} {o a : BitVec 4} {im : Bits64} (hwf : i.WellFormed)
    (he : encode i = .command (commandWord o a im)) (hop : opField m = BitVec.allOnes 4 ∧ opField v = o)
    (harg : argField c &&& argField m = argField v ↔ argField c = a)
    (himm : immField c &&& immField m = immField v ↔ immField c = im) :
    c &&& m = v ↔ decodeCommand c = .ok i := by
  rw [mask_fields, decodeCommand_eq_ok_iff_fields hwf he, harg, himm, hop.1, hop.2, and_allOnes_eq_iff]

/-- Any two rows disagree on a bit that both masks fix. -/
theorem commandRows_pairwise : commandRows.Pairwise fun r q => r.2 &&& q.1 ≠ q.2 &&& r.1 := by decide

theorem length_le_one_of_pairwise {α : Type} {R : α → α → Prop} {l : List α} (hp : l.Pairwise R)
    (hR : ∀ a ∈ l, ∀ b ∈ l, ¬ R a b) : l.length ≤ 1 := by
  match l with
  | [] => exact Nat.zero_le _
  | [_] => exact le_rfl
  | a :: b :: _ => exact absurd (List.rel_of_pairwise_cons hp (by simp)) (hR a (by simp) b (by simp))

theorem commandRows_matches_length_le (c : Command) :
    (commandRows.filter fun row => matchesRow row.1 row.2 c).length ≤ 1 := by
  have hmem : ∀ row ∈ commandRows.filter fun row => matchesRow row.1 row.2 c, c &&& row.1 = row.2 :=
    fun row h => by simpa [matchesRow] using (List.mem_filter.mp h).2
  refine length_le_one_of_pairwise (commandRows_pairwise.filter _) fun r hr q hq hne => hne ?_
  rw [← hmem r hr, ← hmem q hq, BitVec.and_assoc, BitVec.and_assoc, BitVec.and_comm r.1]

/-- Settles O8: each row is read field by field against the encoder, which the decoder inverts. -/
theorem commandRowsDecideTheCommand : Obligations.CommandRowsDecideTheCommand := by
  intro c chan
  have hchan : chan.bit = c.getLsbD 64 := chan_bit _
  have hzero : immField c &&& BitVec.allOnes 64 = 0#64 ↔ immField c = 0#64 := and_allOnes_eq_iff _ _
  refine ⟨?init, ?reset, ?off, ?sine, ?triangle, ?squareHalf, ?squareFull, ?afreq, ?aphase, ?freq, ?phase,
    commandRows_matches_length_le c⟩
  case init => exact row_iff_decodeCommand rfl rfl (by decide) (and_allOnes_eq_iff _ _) (and_zero_eq_iff _)
  case reset => exact row_iff_decodeCommand rfl rfl (by decide) (argField_mask_iff c _ rfl) hzero
  case off => exact row_iff_decodeCommand rfl rfl (by decide) (and_allOnes_eq_iff _ _) hzero
  case sine => exact row_iff_decodeCommand rfl rfl (by decide) (and_allOnes_eq_iff _ _) hzero
  case triangle => exact row_iff_decodeCommand rfl rfl (by decide) (and_allOnes_eq_iff _ _) hzero
  case squareHalf => exact row_iff_decodeCommand rfl rfl (by decide) (and_allOnes_eq_iff _ _) hzero
  case squareFull => exact row_iff_decodeCommand rfl rfl (by decide) (and_allOnes_eq_iff _ _) hzero
  case afreq => exact row_iff_decodeCommand rfl rfl (by decide) (argField_mask_iff c _ hchan) hzero
  case aphase => exact row_iff_decodeCommand rfl rfl (by decide) (argField_mask_iff c _ hchan) hzero
  case freq => exact row_iff_decodeCommand rfl rfl (by decide) (argField_mask_iff c _ hchan) (and_zero_eq_iff _)
  case phase => exact row_iff_decodeCommand rfl rfl (by decide) (argField_mask_iff c _ hchan) (immField_mask_iff c)
/-! ## The register-word rows -/

theorem row_iff_decodeWrite {w m v : RegWord} {i : Instr} {w' : RegWord} (hwf : i.WellFormed)
    (he : encode i = .write w') (h : w &&& m = v ↔ w' = w) : w &&& m = v ↔ decodeWrite w = .ok i := by
  rw [h, decodeWrite_eq_ok_iff, he, CodeWord.write.injEq, and_iff_right hwf]

theorem freqRow_iff (c : Chan) (w : RegWord) :
    w &&& 0xC000#16 = freqTag c ↔ freqDataWord c (w.extractLsb' 0 14) = w := by
  constructor
  · intro h
    apply freqDataWord_of_bits <;> cases c <;> simp [mask_bits, freqTag] at h <;> simp [h, Chan.bit]
  · intro h
    rw [← h]
    cases c <;> simp [mask_bits, freqDataWord, freqTag]

theorem phaseRow_iff (c : Chan) (w : RegWord) :
    w &&& 0xF000#16 = phaseTag c ↔ phaseDataWord c (w.extractLsb' 0 12) = w := by
  constructor
  · intro h
    apply phaseDataWord_of_bits <;> cases c <;> simp [mask_bits, phaseTag] at h <;> simp [h, Chan.bit]
  · intro h
    rw [← h]
    cases c <;> simp [mask_bits, phaseDataWord, phaseTag]

theorem controlRow_iff (w : RegWord) : w &&& 0xF215#16 = 0x2000#16 ↔ decodeWrite w = .ok (.ctrlWrite w) := by
  rw [decodeWrite_eq_ok_iff, wellFormed_ctrlWrite_iff]
  exact (and_iff_left rfl).symm

theorem freq0Row_iff (w : RegWord) :
    w &&& 0xC000#16 = 0x4000#16 ↔ decodeWrite w = .ok (.freq0Write (w.extractLsb' 0 14)) :=
  row_iff_decodeWrite (i := .freq0Write _) rfl rfl (freqRow_iff .ch0 w)

theorem freq1Row_iff (w : RegWord) :
    w &&& 0xC000#16 = 0x8000#16 ↔ decodeWrite w = .ok (.freq1Write (w.extractLsb' 0 14)) :=
  row_iff_decodeWrite (i := .freq1Write _) rfl rfl (freqRow_iff .ch1 w)

theorem phase0Row_iff (w : RegWord) :
    w &&& 0xF000#16 = 0xC000#16 ↔ decodeWrite w = .ok (.phase0Write (w.extractLsb' 0 12)) :=
  row_iff_decodeWrite (i := .phase0Write _) rfl rfl (phaseRow_iff .ch0 w)

theorem phase1Row_iff (w : RegWord) :
    w &&& 0xF000#16 = 0xE000#16 ↔ decodeWrite w = .ok (.phase1Write (w.extractLsb' 0 12)) :=
  row_iff_decodeWrite (i := .phase1Write _) rfl rfl (phaseRow_iff .ch1 w)

theorem decodeWrite_of_row {w : RegWord} (h : ∃ row ∈ writeRows, w &&& row.1 = row.2) : ∃ i, decodeWrite w = .ok i := by
  obtain ⟨row, hmem, hrow⟩ := h
  simp only [writeRows, List.mem_cons, List.not_mem_nil, or_false] at hmem
  rcases hmem with rfl | rfl | rfl | rfl | rfl
  exacts [⟨_, (controlRow_iff w).mp hrow⟩, ⟨_, (freq0Row_iff w).mp hrow⟩, ⟨_, (freq1Row_iff w).mp hrow⟩,
    ⟨_, (phase0Row_iff w).mp hrow⟩, ⟨_, (phase1Row_iff w).mp hrow⟩]

/-- Settles O9: each row is the tag, and the payload rebuilds the word. -/
theorem writeRowsDecideTheRegisterWrite : Obligations.WriteRowsDecideTheRegisterWrite := fun w =>
  ⟨controlRow_iff w, freq0Row_iff w, freq1Row_iff w, phase0Row_iff w, phase1Row_iff w,
    fun ⟨_, h⟩ => writeRow_of_decodeWrite h, decodeWrite_of_row⟩

theorem decodeCommand_of_row {c : Command} (h : ∃ row ∈ commandRows, c &&& row.1 = row.2) :
    ∃ i, decodeCommand c = .ok i := by
  obtain ⟨row, hmem, hrow⟩ := h
  obtain ⟨d0, d1, d2, d3, d4, d5, d6, d7, d8, d9, d10, -⟩ := commandRowsDecideTheCommand c
  simp only [commandRows, List.mem_cons, List.not_mem_nil, or_false] at hmem
  rcases hmem with rfl | rfl | rfl | rfl | rfl | rfl | rfl | rfl | rfl | rfl | rfl
  exacts [⟨_, d0.mp hrow⟩, ⟨_, d1.mp hrow⟩, ⟨_, d2.mp hrow⟩, ⟨_, d3.mp hrow⟩, ⟨_, d4.mp hrow⟩, ⟨_, d5.mp hrow⟩,
    ⟨_, d6.mp hrow⟩, ⟨_, d7.mp hrow⟩, ⟨_, d8.mp hrow⟩, ⟨_, d9.mp hrow⟩, ⟨_, d10.mp hrow⟩]

/-- Settles O10: each word's fields are read off, and the decoder computes. -/
theorem writtenOutWordsDecode : Obligations.WrittenOutWordsDecode := by
  unfold Obligations.WrittenOutWordsDecode
  decide

end Sys2Proof
end

section
/-! SUPPORT. The step, case by case, and why it refuses (spec/10_state.md R25, R26; spec/60_exceptions.md R153,
R154). -/

namespace Sys2Proof.Machine

variable {s : State}

/-! ## The step on each source of code words -/

theorem step_of_command {c : Command} {cs : List Command} {i : Instr} (hw : s.writes = []) (hc : s.commands = c :: cs)
    (hd : decodeCommand c = .ok i) : step s = exec i { s with commands := cs } := by
  simp only [step, State.fetch, hw, hc, decode, hd]

theorem step_of_invalid_command {c : Command} {cs : List Command} {e : Reject} (hw : s.writes = [])
    (hc : s.commands = c :: cs) (hd : decodeCommand c = .error e) : step s = .refused .invalidEncoding := by
  simp only [step, State.fetch, hw, hc, decode, hd, refusalOf]

theorem step_of_write {w : RegWord} {ws : List RegWord} {i : Instr} (hw : s.writes = w :: ws)
    (hd : decodeWrite w = .ok i) : step s = exec i { s with writes := ws } := by
  simp only [step, State.fetch, hw, decode, hd]

theorem step_of_invalid_write {w : RegWord} {ws : List RegWord} {e : Reject} (hw : s.writes = w :: ws)
    (hd : decodeWrite w = .error e) : step s = .refused .neverEmitted := by
  simp only [step, State.fetch, hw, decode, hd, refusalOf]

theorem step_of_nothing (hw : s.writes = []) (hc : s.commands = []) : step s = .next s := by
  simp only [step, State.fetch, hw, hc]

/-- Settles O2: the three sources of a step. -/
theorem stepRunsTheFetchedInstruction : Obligations.StepRunsTheFetchedInstruction := fun _ =>
  ⟨fun _ _ _ hw hc hd => step_of_command hw hc hd, fun _ _ _ hw hd => step_of_write hw hd, step_of_nothing⟩

/-! ## Words that are no instruction -/

/-- A command word is rejected exactly when no row of R59 holds of it. -/
theorem decodeCommand_error_iff (c : Command) :
    (∃ e, decodeCommand c = .error e) ↔ ∀ row ∈ commandRows, c &&& row.1 ≠ row.2 := by
  cases hd : decodeCommand c with
  | ok i =>
    obtain ⟨row, hmem, hrow⟩ := commandRow_of_decodeCommand hd
    exact ⟨fun ⟨_, h⟩ => (nomatch h), fun h => absurd hrow (h row hmem)⟩
  | error e =>
    refine ⟨fun _ row hmem hrow => ?_, fun _ => ⟨e, rfl⟩⟩
    obtain ⟨i, hi⟩ := decodeCommand_of_row ⟨row, hmem, hrow⟩
    rw [hd] at hi
    cases hi

theorem writeRows_of_decodeWrite_error {w : RegWord} {e : Reject} (hd : decodeWrite w = .error e) :
    ∀ row ∈ writeRows, w &&& row.1 ≠ row.2 := by
  intro row hmem hrow
  obtain ⟨i, hi⟩ := decodeWrite_of_row ⟨row, hmem, hrow⟩
  rw [hd] at hi
  cases hi

/-- Settles O3: such a word is rejected by the decoder, and the step refuses it before anything else. -/
theorem unmatchedCommandWordIsRefused : Obligations.UnmatchedCommandWordIsRefused := by
  intro s c cs hw hc hrows
  obtain ⟨e, he⟩ := (decodeCommand_error_iff c).mpr hrows
  exact step_of_invalid_command hw hc he

/-! ## Refusals of an instruction -/

/-- Settles O5: every such command is guarded by `whenInited`. -/
theorem commandBeforeInitIsRefused : Obligations.CommandBeforeInitIsRefused := by
  intro i s hcmd hinit hs
  have hguard (t : State) : s.whenInited t = .refused .notInitialised := State.whenInited_of_not_inited hs t
  cases i with
  | init ref => exact absurd rfl (hinit ref)
  | reset => exact hguard _
  | setModeOff => exact hguard _
  | setModeSine => exact hguard _
  | setModeTriangle => exact hguard _
  | setModeSquareHalf => exact hguard _
  | setModeSquareFull => exact hguard _
  | setAFreq => exact hguard _
  | setAPhase => exact hguard _
  | setFreq => exact hguard _
  | setPhase => exact hguard _
  | ctrlWrite => cases hcmd
  | freq0Write => cases hcmd
  | freq1Write => cases hcmd
  | phase0Write => cases hcmd
  | phase1Write => cases hcmd

theorem exec_init_of_valid {ref : Bits64} (h : validReferenceClock ref = true) (s : State) :
    exec (.init ref) s = .next (s.doInit ref) :=
  if_pos h

theorem exec_init_of_invalid {ref : Bits64} (h : ¬ validReferenceClock ref = true) (s : State) :
    exec (.init ref) s = .refused .badReferenceClock :=
  if_neg h

/-- The clocks outside the contract, on the bits of the pattern (R144). -/
theorem validReferenceClock_false_iff (ref : Bits64) :
    ¬ validReferenceClock ref = true ↔
      ref.getLsbD 63 = true ∨ ref.extractLsb' 52 11 = 2047#11 ∨ ref = 0#64 := by
  rw [validReferenceClock_bits, not_and_or, not_and_or, Bool.not_eq_false, not_not, not_not]

/-- Settles O19: those clocks are the ones outside the contract. -/
theorem initRefusesABadReferenceClock : Obligations.InitRefusesABadReferenceClock := by
  intro s ref h
  apply exec_init_of_invalid
  rw [validReferenceClock_false_iff]
  rcases h with h | h | h
  · exact .inr (.inr h)
  · exact .inl h
  · exact .inr (.inl h)

/-- A register write has no precondition; a command is refused for its guard or, if it is INIT, for its clock. -/
theorem exec_refused_cases {i : Instr} {r : Refusal} (h : exec i s = .refused r) :
    isCommand i = true ∧
      ((r = .notInitialised ∧ s.inited = false ∧ ∀ ref, i ≠ .init ref) ∨
        (r = .badReferenceClock ∧ ∃ ref, i = .init ref ∧ ¬ validReferenceClock ref = true)) := by
  have hguard {t : State} {j : Instr} (hj : ∀ ref, j ≠ .init ref) (hr : s.whenInited t = .refused r) :
      (r = .notInitialised ∧ s.inited = false ∧ ∀ ref, j ≠ .init ref) ∨
        (r = .badReferenceClock ∧ ∃ ref, j = .init ref ∧ ¬ validReferenceClock ref = true) :=
    have ⟨hs, hr⟩ := State.whenInited_refused.mp hr
    .inl ⟨hr, hs, hj⟩
  cases i with
  | init ref =>
    by_cases hv : validReferenceClock ref = true
    · rw [exec_init_of_valid hv] at h
      cases h
    · rw [exec_init_of_invalid hv] at h
      cases h
      exact ⟨rfl, .inr ⟨rfl, ref, rfl, hv⟩⟩
  | reset => exact ⟨rfl, hguard nofun h⟩
  | setModeOff => exact ⟨rfl, hguard nofun h⟩
  | setModeSine => exact ⟨rfl, hguard nofun h⟩
  | setModeTriangle => exact ⟨rfl, hguard nofun h⟩
  | setModeSquareHalf => exact ⟨rfl, hguard nofun h⟩
  | setModeSquareFull => exact ⟨rfl, hguard nofun h⟩
  | setAFreq => exact ⟨rfl, hguard nofun h⟩
  | setAPhase => exact ⟨rfl, hguard nofun h⟩
  | setFreq => exact ⟨rfl, hguard nofun h⟩
  | setPhase => exact ⟨rfl, hguard nofun h⟩
  | ctrlWrite => cases h
  | freq0Write => cases h
  | freq1Write => cases h
  | phase0Write => cases h
  | phase1Write => cases h

/-- A register word decodes to a register write. -/
theorem isCommand_of_decodeWrite {w : RegWord} {i : Instr} (h : decodeWrite w = .ok i) : isCommand i = false := by
  unfold decodeWrite at h
  split_ifs at h <;> cases h <;> rfl

/-- Settles O4: by the source of the step, whether its word decodes, and why the instruction refused. -/
theorem stepRefusesOnlyForItsReasons : Obligations.StepRefusesOnlyForItsReasons := by
  intro s r h
  cases hw : s.writes with
  | cons w ws =>
    cases hd : decodeWrite w with
    | ok i =>
      rw [step_of_write hw hd] at h
      have hcmd := (exec_refused_cases h).1
      rw [isCommand_of_decodeWrite hd] at hcmd
      cases hcmd
    | error e =>
      rw [step_of_invalid_write hw hd] at h
      cases h
      exact .inr (.inr (.inr ⟨rfl, w, ws, rfl, writeRows_of_decodeWrite_error hd⟩))
  | nil =>
    cases hc : s.commands with
    | nil =>
      rw [step_of_nothing hw hc] at h
      cases h
    | cons c cs =>
      cases hd : decodeCommand c with
      | ok i =>
        rw [step_of_command hw hc hd] at h
        obtain ⟨-, ⟨rfl, hs, hi⟩ | ⟨rfl, ref, rfl, hv⟩⟩ := exec_refused_cases h
        · exact .inr (.inl ⟨rfl, hs, rfl, c, cs, i, rfl, hd, hi⟩)
        · exact .inr (.inr (.inl ⟨rfl, rfl, c, cs, ref, rfl, hd, (validReferenceClock_false_iff ref).mp hv⟩))
      | error e =>
        rw [step_of_invalid_command hw hc hd] at h
        cases h
        exact .inl ⟨rfl, rfl, c, cs, rfl, (decodeCommand_error_iff c).mp ⟨e, hd⟩⟩

end Sys2Proof.Machine
end

section
/-! SUPPORT. Power-on, and each instruction's whole effect (spec/41_control_ops.md R107 to R109, spec/42_data_ops.md,
spec/43_init.md, spec/70_reset_and_hazards.md R170). -/

namespace Sys2Proof.Machine

variable {s : State}

/-! ## Power-on -/

theorem reset_chan_unwritten (c : Chan) :
    (State.reset.chan c).freqWritten = false ∧ (State.reset.chan c).phaseWritten = false := by
  cases c <;> exact ⟨rfl, rfl⟩

/-- Settles O1: nothing has a mark at power-on, so every read but that of `INITED` is free. -/
theorem resetIsPowerOn : Obligations.ResetIsPowerOn := by
  refine ⟨rfl, rfl, rfl, fun n => ⟨rfl, rfl, rfl, fun c => ?_⟩⟩
  obtain ⟨hf, hp⟩ := reset_chan_unwritten c
  simp only [State.introspectReqf, State.introspectFreqw, State.introspectReqp, State.introspectPhasew, hf, hp,
    Bool.false_eq_true, if_false, and_self]

/-- Settles O32: the invariants speak of an initialised state or of a written channel, and `TX` is empty. -/
theorem invariantsHoldAtReset : Obligations.InvariantsHoldAtReset := by
  have hinit : State.reset.inited ≠ true := Bool.false_ne_true
  have hfreq (c : Chan) : (State.reset.chan c).freqWritten ≠ true := by
    rw [(reset_chan_unwritten c).1]; exact Bool.false_ne_true
  have hphase (c : Chan) : (State.reset.chan c).phaseWritten ≠ true := by
    rw [(reset_chan_unwritten c).2]; exact Bool.false_ne_true
  exact ⟨rfl, rfl, fun h => absurd h hinit, fun h => absurd h hinit,
    ⟨fun h => absurd h hinit, fun c => ⟨fun h => absurd h (hfreq c), fun h => absurd h (hphase c)⟩⟩,
    ⟨fun _ => ⟨rfl, reset_chan_unwritten⟩, fun h => absurd h hinit⟩,
    fun c h => absurd h (hphase c), fun c h => absurd h (hfreq c)⟩

/-! ## The control-register operations -/

/-- Settles O14: the shape common to the modes at `square_full`. -/
theorem squareFullClearsDivTwo : Obligations.SquareFullClearsDivTwo := fun _ h =>
  State.whenInited_doSetMode h .squareFull

/-- What an operation that only puts a value in `CTL` answers. -/
theorem State.whenInited_putCtl (h : s.inited = true) (v : RegWord) :
    s.whenInited (s.putCtl v) = .next { s with ctl := v, tx := s.tx ++ frames [v] } := by
  rw [State.whenInited_of_inited h, State.putCtl_eq]

/-- Settles O15: each select puts `CTL` with its bit set for channel 1 and cleared for channel 0. -/
theorem selectSetsOrClearsItsBit : Obligations.SelectSetsOrClearsItsBit := fun s h =>
  ⟨State.whenInited_putCtl h (selectChannel fselectBit .ch1 s.ctl),
    State.whenInited_putCtl h (selectChannel fselectBit .ch0 s.ctl),
    State.whenInited_putCtl h (selectChannel pselectBit .ch1 s.ctl),
    State.whenInited_putCtl h (selectChannel pselectBit .ch0 s.ctl)⟩

/-! ## SETFREQ and SETPHASE -/

/-- The word SETFREQ stores and the count of draws it leaves, from the codec's answer (R82, R85). -/
theorem State.frequencyWord_eq {f : Bits64} {fw : FreqWord} {d : Nat}
    (h : frequencyWord? f s.refclk = some fw ∧ d = s.draws ∨
      frequencyWord? f s.refclk = none ∧ fw = Config.freqNonfiniteWord s.draws ∧ d = s.draws + 1) :
    s.frequencyWord f = fw ∧ s.drawsAfter f = d := by
  obtain ⟨hw, rfl⟩ | ⟨hw, rfl, rfl⟩ := h
  · exact State.frequencyWord_of_some hw
  · exact State.frequencyWord_of_none hw

/-- Settles O16: the rule of SETFREQ with the stored word named and the halves as shifts and masks. -/
theorem setFreqStoresAndSendsThreeWords : Obligations.SetFreqStoresAndSendsThreeWords := by
  intro s f fw d hinit hfw
  obtain ⟨hw, hd⟩ := State.frequencyWord_eq hfw
  constructor
  · rw [exec_setFreq_of_inited hinit, State.doSetFreq_eq, hw, hd, freqDataWord_lo14, freqDataWord_hi14]
    rfl
  · rw [exec_setFreq_of_inited hinit, State.doSetFreq_eq, hw, hd, freqDataWord_lo14, freqDataWord_hi14]
    rfl

/-- Settles O17: the rule of SETPHASE with the stored word named by its value. -/
theorem setPhaseStoresAndSendsOneWord : Obligations.SetPhaseStoresAndSendsOneWord := by
  intro s t pw hinit hpw
  have hword : phaseWord t = pw := BitVec.eq_of_toNat_eq (by rw [hpw, phaseWord, BitVec.toNat_ofNat, phaseUnits])
  constructor
  · rw [exec_setPhase_of_inited hinit, State.doSetPhase_eq, hword]
    rfl
  · rw [exec_setPhase_of_inited hinit, State.doSetPhase_eq, hword]
    rfl

/-! ## INIT -/

theorem phaseWord_zero : phaseWord 0#16 = 0#12 := by decide

/-- Settles O18: the rule of INIT with the word of 1000.0 at the new clock named. -/
theorem initSendsElevenWordsAndSetsTheState : Obligations.InitSendsElevenWordsAndSetsTheState := by
  intro s ref fw d hsign hexp hzero hfw
  obtain ⟨hw, hd⟩ := State.frequencyWord_eq (s := { s with refclk := ref }) hfw
  rw [exec_init_of_valid ((validReferenceClock_bits ref).mpr ⟨hsign, hexp, hzero⟩), State.doInit_eq, initFreq, hw, hd,
    freqDataWord_lo14, freqDataWord_hi14, phaseWord_zero]
  rfl

theorem exec_init_next {ref : Bits64} {t : State} (h : exec (.init ref) s = .next t) :
    validReferenceClock ref = true ∧ t = s.doInit ref := by
  by_cases hv : validReferenceClock ref = true
  · rw [exec_init_of_valid hv] at h
    cases h
    exact ⟨hv, rfl⟩
  · rw [exec_init_of_invalid hv] at h
    cases h

/-- Settles O21: INIT marks channel 0 and the control elements, and leaves channel 1 as it was at power-on. -/
theorem firstInitLeavesChannelOneUnwritten : Obligations.FirstInitLeavesChannelOneUnwritten := by
  intro ref t h n
  obtain ⟨-, rfl⟩ := exec_init_next h
  rw [State.doInit_eq]
  refine ⟨rfl, rfl, rfl, rfl, rfl, fun w hw => ?_, rfl, phaseWord_zero, rfl, rfl, rfl, rfl⟩
  exact (State.frequencyWord_of_some (s := { State.reset with refclk := ref }) hw).1

/-! ## The register writes -/

/-- Settles O20: each register write is `writeReg` of its word, whose frame is high byte first. -/
theorem registerWriteSendsOneFrame : Obligations.RegisterWriteSendsOneFrame := by
  intro s
  refine ⟨fun w => rfl, ?_, ?_, ?_, ?_⟩
  all_goals
    rintro _ _ rfl
    rfl

end Sys2Proof.Machine
end

section
/-! SUPPORT. What an instruction does to `CTL` as a pair of masks, and the words it sends as a function of the state
(spec/10_state.md R12, spec/41_control_ops.md R101 to R111, spec/70_reset_and_hazards.md R180 to R184). -/

namespace Sys2Proof.Machine

variable {i : Instr} {s t : State}

/-! ## Clearing and setting bits -/

/-- Clear the bits of one mask, then set those of another. -/
def maskBits (clear set c : RegWord) : RegWord := (c &&& ~~~clear) ||| set

theorem maskBits_getLsbD (clear set c : RegWord) {k : Nat} (hk : k < 16) :
    (maskBits clear set c).getLsbD k = (c.getLsbD k && !clear.getLsbD k || set.getLsbD k) := by
  rw [maskBits, BitVec.getLsbD_or, BitVec.getLsbD_and, BitVec.getLsbD_not, decide_eq_true hk, Bool.true_and]

/-- Bits outside both masks stay. -/
theorem maskBits_and {clear set m : RegWord} (hc : clear &&& m = 0#16) (hs : set &&& m = 0#16) (c : RegWord) :
    maskBits clear set c &&& m = c &&& m := by
  apply BitVec.eq_of_getLsbD_eq
  intro k hk
  have hck : (clear.getLsbD k && m.getLsbD k) = false := by rw [← BitVec.getLsbD_and, hc, BitVec.getLsbD_zero]
  have hsk : (set.getLsbD k && m.getLsbD k) = false := by rw [← BitVec.getLsbD_and, hs, BitVec.getLsbD_zero]
  rw [BitVec.getLsbD_and, BitVec.getLsbD_and, maskBits_getLsbD _ _ _ hk]
  revert hck hsk
  generalize c.getLsbD k = x, clear.getLsbD k = y, set.getLsbD k = z, m.getLsbD k = v
  revert x y z v
  decide

theorem maskBits_idem (clear set c : RegWord) :
    maskBits clear set (maskBits clear set c) = maskBits clear set c := by
  apply BitVec.eq_of_getLsbD_eq
  intro k hk
  rw [maskBits_getLsbD _ _ _ hk, maskBits_getLsbD _ _ _ hk]
  generalize c.getLsbD k = x, clear.getLsbD k = y, set.getLsbD k = z
  revert x y z
  decide

/-- A bit that changes is set by the one mask or cleared by the other. -/
theorem maskBits_changed {clear set c : RegWord} {k : Nat} (hk : k < 16)
    (h : (maskBits clear set c).getLsbD k ≠ c.getLsbD k) :
    ((maskBits clear set c).getLsbD k = true ∧ set.getLsbD k = true) ∨
      ((maskBits clear set c).getLsbD k = false ∧ clear.getLsbD k = true) := by
  rw [maskBits_getLsbD _ _ _ hk] at h ⊢
  revert h
  generalize c.getLsbD k = x, clear.getLsbD k = y, set.getLsbD k = z
  revert x y z
  decide

theorem maskBits_zero_left (set c : RegWord) : maskBits 0#16 set c = c ||| set := by
  rw [maskBits, BitVec.not_zero, BitVec.and_allOnes]

theorem maskBits_zero_right (clear c : RegWord) : maskBits clear 0#16 c = c &&& ~~~clear := by
  rw [maskBits, BitVec.or_zero]

/-! ## The masks of each instruction -/

/-- The bits an instruction other than INIT clears in `CTL`. -/
def clearMask : Instr → RegWord
  | .reset hold => if hold then 0#16 else 0x0100#16
  | .setModeOff => 0x0022#16
  | .setModeSine => 0x00E2#16
  | .setModeTriangle => 0x00E0#16
  | .setModeSquareHalf => 0x00C2#16
  | .setModeSquareFull => 0x00CA#16
  | .setAFreq c => if c = .ch0 then 0x0800#16 else 0#16
  | .setAPhase c => if c = .ch0 then 0x0400#16 else 0#16
  | _ => 0#16

/-- The bits an instruction other than INIT sets in `CTL`. -/
def setMask : Instr → RegWord
  | .reset hold => if hold then 0x0100#16 else 0#16
  | .setModeOff => 0x00C0#16
  | .setModeTriangle => 0x0002#16
  | .setModeSquareHalf => 0x0028#16
  | .setModeSquareFull => 0x0020#16
  | .setAFreq c => if c = .ch1 then 0x0800#16 else 0#16
  | .setAPhase c => if c = .ch1 then 0x0400#16 else 0#16
  | .setFreq _ _ => 0x2000#16
  | _ => 0#16

theorem selectChannel_eq_maskBits (m : RegWord) (c : Chan) (w : RegWord) :
    selectChannel m c w = maskBits (if c = .ch0 then m else 0#16) (if c = .ch1 then m else 0#16) w := by
  cases c
  · exact (maskBits_zero_right m w).symm
  · exact (maskBits_zero_left m w).symm

theorem controlResult_ctl_eq_maskBits (hi : isControlOp i = true) :
    (controlResult i s).1 = maskBits (clearMask i) (setMask i) s.ctl := by
  cases i with
  | reset hold =>
    cases hold
    · exact (maskBits_zero_right _ _).symm
    · exact (maskBits_zero_left _ _).symm
  | setModeOff => rfl
  | setModeSine => exact (maskBits_zero_right _ _).symm
  | setModeTriangle => rfl
  | setModeSquareHalf => rfl
  | setModeSquareFull => rfl
  | setAFreq c => exact selectChannel_eq_maskBits _ c _
  | setAPhase c => exact selectChannel_eq_maskBits _ c _
  | _ => cases hi

theorem maskBits_of_isCommand_false (hi : isCommand i = false) (c : RegWord) :
    maskBits (clearMask i) (setMask i) c = c := by
  have hzero : maskBits 0#16 0#16 c = c := by rw [maskBits_zero_right, BitVec.not_zero, BitVec.and_allOnes]
  cases i <;> cases hi <;> exact hzero

/-- `CTL` after any instruction but INIT. -/
theorem exec_next_ctl (hi : ∀ ref, i ≠ .init ref) (h : exec i s = .next t) :
    t.ctl = maskBits (clearMask i) (setMask i) s.ctl := by
  obtain ⟨hc, -, rfl⟩ | ⟨c, f, rfl, -, rfl⟩ | ⟨c, x, rfl, -, rfl⟩ | ⟨ref, rfl, -, -⟩ | ⟨hc, rfl⟩ := exec_next_cases h
  · exact controlResult_ctl_eq_maskBits hc
  · rw [State.doSetFreq_ctl]
    exact (maskBits_zero_left _ _).symm
  · rw [State.doSetPhase_eq, ← State.setChan_ctl s c]
    exact (maskBits_of_isCommand_false (i := .ctrlWrite 0) rfl _).symm
  · exact absurd rfl (hi ref)
  · exact (maskBits_of_isCommand_false hc _).symm

/-! ## The words an instruction sends -/

/-- The words an instruction sends, oldest first. -/
def sentWords : Instr → State → List RegWord
  | .init ref, s =>
    [0x2000#16, 0x2100#16, 0x2100#16, freqDataWord .ch0 (lo14 ({ s with refclk := ref }.frequencyWord initFreq)),
      freqDataWord .ch0 (hi14 ({ s with refclk := ref }.frequencyWord initFreq)),
      phaseDataWord .ch0 (phaseWord 0#16), 0x2100#16, 0x2000#16, 0x2000#16, 0x2000#16, 0x2000#16]
  | .setFreq c f, s =>
    [setBits b28Bit s.ctl, freqDataWord c (lo14 (s.frequencyWord f)), freqDataWord c (hi14 (s.frequencyWord f))]
  | .setPhase c x, _ => [phaseDataWord c (phaseWord x)]
  | .ctrlWrite w, _ => [w]
  | .freq0Write half, _ => [freqDataWord .ch0 half]
  | .freq1Write half, _ => [freqDataWord .ch1 half]
  | .phase0Write pw, _ => [phaseDataWord .ch0 pw]
  | .phase1Write pw, _ => [phaseDataWord .ch1 pw]
  | i, s => (controlResult i s).2.2

theorem sentWords_of_isControlOp (hi : isControlOp i = true) : sentWords i s = (controlResult i s).2.2 := by
  cases i <;> cases hi <;> rfl

theorem sentWords_of_isCommand_false (hi : isCommand i = false) : sentWords i s = [registerWord i] := by
  cases i <;> cases hi <;> rfl

theorem exec_next_tx (h : exec i s = .next t) : t.tx = s.tx ++ frames (sentWords i s) := by
  obtain ⟨hc, -, rfl⟩ | ⟨c, f, rfl, -, rfl⟩ | ⟨c, x, rfl, -, rfl⟩ | ⟨ref, rfl, -, rfl⟩ | ⟨hc, rfl⟩ := exec_next_cases h
  · rw [sentWords_of_isControlOp hc]
  · rw [State.doSetFreq_eq]; rfl
  · rw [State.doSetPhase_eq]; rfl
  · rw [State.doInit_eq]; rfl
  · rw [sentWords_of_isCommand_false hc]

theorem exec_next_words (h : exec i s = .next t) : words t.tx = words s.tx ++ sentWords i s := by
  rw [exec_next_tx h, words_append, words_frames]

theorem sentWords_length (i : Instr) (s : State) : (sentWords i s).length = writeCount i := by
  cases i with
  | reset hold => cases hold <;> rfl
  | _ => rfl

/-- Settles O23: what is sent is `sentWords`, whose length is fixed. -/
theorem everyInstructionSendsAFixedNumberOfWords : Obligations.EveryInstructionSendsAFixedNumberOfWords :=
  fun i s _ h => ⟨sentWords i s, exec_next_tx h, sentWords_length i s⟩

/-- Settles O34: a step appends frames. -/
theorem stepOnlyAppendsToTx : Obligations.StepOnlyAppendsToTx := by
  intro s t h
  obtain ⟨ws, ht⟩ := step_tx_append_frames h
  exact ⟨frames ws, ht.symm⟩

/-- A control-register operation sends the `CTL` it leaves, and `RESET 0` before that the one with the reset bit set
(R101, R111). -/
theorem controlResult_words (hi : isControlOp i = true) :
    (controlResult i s).2.2 = [(controlResult i s).1] ∨
      i = .reset false ∧ (controlResult i s).2.2 = [s.ctl ||| 0x0100#16, (controlResult i s).1] := by
  cases i with
  | reset hold =>
    cases hold
    · exact .inr ⟨rfl, rfl⟩
    · exact .inl rfl
  | setModeOff => exact .inl rfl
  | setModeSine => exact .inl rfl
  | setModeTriangle => exact .inl rfl
  | setModeSquareHalf => exact .inl rfl
  | setModeSquareFull => exact .inl rfl
  | setAFreq => exact .inl rfl
  | setAPhase => exact .inl rfl
  | _ => cases hi

/-! ## Control words stay on their row -/

/-- The row of a control word: the bits with no meaning clear and `B28` set (spec/30_encoding.md R51). -/
def OnControlRow (w : RegWord) : Prop := w &&& 0xF215#16 = 0x2000#16

theorem LegalControl.onControlRow {w : RegWord} {m : Mode} (h : LegalControl w m) : OnControlRow w := by
  obtain ⟨hzero, hb28, -, -, -⟩ := h
  simp [mask_bits] at hzero hb28
  simp [OnControlRow, mask_bits, hzero, hb28]

theorem OnControlRow.dest {w : RegWord} (h : OnControlRow w) : dest w = .control := by
  simp [OnControlRow, mask_bits] at h
  apply dest_of_tag
  simp [tag_bits, h]

theorem OnControlRow.row {w : RegWord} (h : OnControlRow w) : ∃ row ∈ writeRows, w &&& row.1 = row.2 :=
  ⟨(0xF215, 0x2000), by decide, h⟩

theorem OnControlRow.maskBits {clear set w : RegWord} (hc : clear &&& 0xF215#16 = 0#16)
    (hs : set &&& 0xD215#16 = 0#16) (h : OnControlRow w) : OnControlRow (maskBits clear set w) := by
  simp [mask_bits] at hc hs
  simp [OnControlRow, mask_bits] at h
  simp [OnControlRow, Machine.maskBits, mask_bits, hc, hs, h]

/-- No instruction has a bit with no meaning in its masks, and none clears `B28` (R12, R13). -/
theorem clearMask_reserved (i : Instr) : clearMask i &&& 0xF215#16 = 0#16 := by
  cases i with
  | reset hold => cases hold <;> decide
  | setAFreq c => cases c <;> decide
  | setAPhase c => cases c <;> decide
  | _ => simp [clearMask]

theorem setMask_reserved (i : Instr) : setMask i &&& 0xD215#16 = 0#16 := by
  cases i with
  | reset hold => cases hold <;> decide
  | setAFreq c => cases c <;> decide
  | setAPhase c => cases c <;> decide
  | _ => simp [setMask]

end Sys2Proof.Machine
end

section
/-! SUPPORT. What follows from the masks and the words of each instruction: the words a command sends
(spec/30_encoding.md R55, spec/41_control_ops.md R111), the writers of each bit and element (spec/10_state.md R10, R12),
and the bits that stick (spec/70_reset_and_hazards.md R180, R181). -/

namespace Sys2Proof.Machine

variable {i : Instr} {s t : State}

/-! ## Words on their rows -/

theorem OnControlRow.controlResult (hi : isControlOp i = true) (h : OnControlRow s.ctl) :
    OnControlRow (controlResult i s).1 := by
  rw [controlResult_ctl_eq_maskBits hi]
  exact h.maskBits (clearMask_reserved i) (setMask_reserved i)

theorem OnControlRow.setBits {m w : RegWord} (hm : m &&& 0xD215#16 = 0#16) (h : OnControlRow w) :
    OnControlRow (setBits m w) := by
  rw [Machine.setBits, ← maskBits_zero_left]
  exact h.maskBits (by decide) hm

/-- From a `CTL` on its row, a control-register operation sends words on that row only. -/
theorem OnControlRow.of_mem_controlResult (hi : isControlOp i = true) (h : OnControlRow s.ctl) {w : RegWord}
    (hw : w ∈ (Machine.controlResult i s).2.2) : OnControlRow w := by
  obtain he | ⟨-, he⟩ := controlResult_words (s := s) hi
  · rw [he, List.mem_singleton] at hw
    rw [hw]; exact h.controlResult hi
  · rw [he, List.mem_cons, List.mem_singleton] at hw
    obtain rfl | rfl := hw
    · exact h.setBits (m := 0x0100#16) (by decide)
    · exact h.controlResult hi

theorem controlRow_of_const {w : RegWord} (h : w = 0x2000#16 ∨ w = 0x2100#16) :
    ∃ row ∈ writeRows, w &&& row.1 = row.2 := by
  obtain rfl | rfl := h
  · exact OnControlRow.row (by unfold OnControlRow; decide)
  · exact OnControlRow.row (by unfold OnControlRow; decide)

/-- Settles O24: the control words stay on their row, and the data words are on the rows of their tags. -/
theorem everyEmittedWordMatchesATableRow : Obligations.EveryEmittedWordMatchesATableRow := by
  intro i s t hcmd hlegal h
  refine ⟨sentWords i s, exec_next_words h, fun w hw => ?_⟩
  obtain ⟨hc, hs, -⟩ | ⟨c, f, rfl, hs, -⟩ | ⟨c, x, rfl, hs, -⟩ | ⟨ref, rfl, -, -⟩ | ⟨hc, -⟩ := exec_next_cases h
  · rw [sentWords_of_isControlOp hc] at hw
    exact ((hlegal hs).onControlRow.of_mem_controlResult hc hw).row
  · simp only [sentWords, List.mem_cons, List.not_mem_nil, or_false] at hw
    obtain rfl | rfl | rfl := hw
    · exact ((hlegal hs).onControlRow.setBits (by decide)).row
    · exact freqDataWord_row c _
    · exact freqDataWord_row c _
  · simp only [sentWords, List.mem_cons, List.not_mem_nil, or_false] at hw
    obtain rfl := hw
    exact phaseDataWord_row c _
  · simp only [sentWords, List.mem_cons, List.not_mem_nil, or_false] at hw
    obtain rfl | rfl | rfl | rfl | rfl | rfl | hw := hw
    · exact controlRow_of_const (.inl rfl)
    · exact controlRow_of_const (.inr rfl)
    · exact controlRow_of_const (.inr rfl)
    · exact freqDataWord_row .ch0 _
    · exact freqDataWord_row .ch0 _
    · exact phaseDataWord_row .ch0 _
    · exact controlRow_of_const (by tauto)
  · rw [hcmd] at hc
    cases hc

theorem isCommand_of_isControlOp (hi : isControlOp i = true) : isCommand i = true := by
  cases i <;> cases hi <;> rfl

/-- A control-register operation completes in one shape only. -/
theorem exec_next_of_isControlOp (hi : isControlOp i = true) (h : exec i s = .next t) :
    s.inited = true ∧ t = { s with
      ctl := (controlResult i s).1
      activeMode := (controlResult i s).2.1
      tx := s.tx ++ frames (controlResult i s).2.2 } := by
  obtain ⟨-, hs, ht⟩ | ⟨c, f, rfl, -, -⟩ | ⟨c, x, rfl, -, -⟩ | ⟨ref, rfl, -, -⟩ | ⟨hc, -⟩ := exec_next_cases h
  · exact ⟨hs, ht⟩
  · cases hi
  · cases hi
  · cases hi
  · rw [isCommand_of_isControlOp hi] at hc
    cases hc

/-- Settles O25: the words are on the row of control words, and the last of them is the value put in `CTL`. -/
theorem controlOperationsSendOnlyControlWords : Obligations.ControlOperationsSendOnlyControlWords := by
  intro i s t hi hlegal h
  obtain ⟨hs, rfl⟩ := exec_next_of_isControlOp hi h
  refine ⟨(controlResult i s).2.2, ?words, fun w hw => ?dest, ?last⟩
  case words => rw [words_append, words_frames]
  case dest => exact ((hlegal hs).onControlRow.of_mem_controlResult hi hw).dest
  case last =>
    obtain he | ⟨-, he⟩ := controlResult_words (s := s) hi
    · rw [he]; rfl
    · rw [he]; rfl

/-! ## The bits that stick -/

theorem dest_freqDataWord_ne_control (c : Chan) (x : FreqHalf) : dest (freqDataWord c x) ≠ .control := by
  rw [dest_freqDataWord]; nofun

theorem dest_phaseDataWord_ne_control (c : Chan) (p : PhaseWord) : dest (phaseDataWord c p) ≠ .control := by
  rw [dest_phaseDataWord]; nofun

/-- A control word that a command other than INIT sends is the `CTL` it leaves, but for the first word of `RESET 0`. -/
theorem sent_control_word (hcmd : isCommand i = true) (hi : ∀ ref, i ≠ .init ref) (h : exec i s = .next t) {w : RegWord}
    (hw : w ∈ sentWords i s) (hd : dest w = .control) :
    w = t.ctl ∨ i = .reset false ∧ w = s.ctl ||| 0x0100#16 := by
  obtain ⟨hc, -, rfl⟩ | ⟨c, f, rfl, -, rfl⟩ | ⟨c, x, rfl, -, -⟩ | ⟨ref, rfl, -, -⟩ | ⟨hc, -⟩ := exec_next_cases h
  · rw [sentWords_of_isControlOp hc] at hw
    obtain he | ⟨hr, he⟩ := controlResult_words (s := s) hc
    · rw [he, List.mem_singleton] at hw
      exact .inl hw
    · rw [he, List.mem_cons, List.mem_singleton] at hw
      exact hw.symm.imp id (⟨hr, ·⟩)
  · simp only [sentWords, List.mem_cons, List.not_mem_nil, or_false] at hw
    obtain rfl | rfl | rfl := hw
    · exact .inl (s.doSetFreq_ctl c f).symm
    · exact absurd hd (dest_freqDataWord_ne_control c _)
    · exact absurd hd (dest_freqDataWord_ne_control c _)
  · obtain rfl := List.mem_singleton.mp hw
    exact absurd hd (dest_phaseDataWord_ne_control c _)
  · exact absurd rfl (hi ref)
  · rw [hcmd] at hc
    cases hc

/-- The instruction that clears each bit of `CTL` (R12). -/
theorem clearMask_writers (i : Instr) :
    ((clearMask i).getLsbD 11 = true → i = .setAFreq .ch0) ∧
    ((clearMask i).getLsbD 10 = true → i = .setAPhase .ch0) ∧
    ((clearMask i).getLsbD 8 = true → i = .reset false) ∧
    ((clearMask i).getLsbD 7 = true ∨ (clearMask i).getLsbD 6 = true →
      i ∈ [.setModeSine, .setModeTriangle, .setModeSquareHalf, .setModeSquareFull]) ∧
    ((clearMask i).getLsbD 5 = true → i ∈ [.setModeOff, .setModeSine, .setModeTriangle]) ∧
    ((clearMask i).getLsbD 3 = true → i = .setModeSquareFull) ∧
    ((clearMask i).getLsbD 1 = true → i ∈ [.setModeOff, .setModeSine, .setModeSquareHalf, .setModeSquareFull]) := by
  cases i with
  | reset hold => cases hold <;> decide
  | setAFreq c => cases c <;> decide
  | setAPhase c => cases c <;> decide
  | _ => simp [clearMask]

/-- The instruction that sets each bit of `CTL` (R12). -/
theorem setMask_writers (i : Instr) :
    ((setMask i).getLsbD 13 = true → ∃ c f, i = .setFreq c f) ∧
    ((setMask i).getLsbD 11 = true → i = .setAFreq .ch1) ∧
    ((setMask i).getLsbD 10 = true → i = .setAPhase .ch1) ∧
    ((setMask i).getLsbD 8 = true → i = .reset true) ∧
    ((setMask i).getLsbD 7 = true ∨ (setMask i).getLsbD 6 = true → i = .setModeOff) ∧
    ((setMask i).getLsbD 5 = true → i ∈ [.setModeSquareHalf, .setModeSquareFull]) ∧
    ((setMask i).getLsbD 3 = true → i = .setModeSquareHalf) ∧
    ((setMask i).getLsbD 1 = true → i = .setModeTriangle) := by
  cases i with
  | reset hold => cases hold <;> simp [setMask]
  | setAFreq c => cases c <;> simp [setMask]
  | setAPhase c => cases c <;> simp [setMask]
  | _ => simp [setMask]

/-- A bit that an instruction does not clear stays set in `CTL`. -/
theorem exec_next_ctl_stays_set (hi : ∀ ref, i ≠ .init ref) (h : exec i s = .next t) {k : Nat} (hk : k < 16)
    (hs : s.ctl.getLsbD k = true) (hc : (clearMask i).getLsbD k ≠ true) : t.ctl.getLsbD k = true := by
  rw [exec_next_ctl hi h, maskBits_getLsbD _ _ _ hk, hs, eq_false_of_ne_true hc]
  rfl

theorem set_bits_or (w m : RegWord) (k : Nat) (h : w.getLsbD k = true) : (w ||| m).getLsbD k = true := by
  rw [BitVec.getLsbD_or, h, Bool.true_or]

/-- Settles O29: neither bit is in the other instructions' clearing masks, and the control words sent are `CTL`. -/
theorem heldResetAndDivTwoAreSticky : Obligations.HeldResetAndDivTwoAreSticky := by
  intro i s t ws hcmd hi h hws
  have hsent : ws = sentWords i s := List.append_cancel_left (hws.symm.trans (exec_next_words h))
  subst hsent
  obtain ⟨-, -, hclear8, -, -, hclear3, -⟩ := clearMask_writers i
  constructor
  · intro hs hr
    have ht := exec_next_ctl_stays_set hi h (k := 8) (by decide) hs fun hc => hr (hclear8 hc)
    refine ⟨ht, fun w hw hd => ?_⟩
    obtain rfl | ⟨he, -⟩ := sent_control_word hcmd hi h hw hd
    · exact ht
    · exact absurd he hr
  · intro hs hq
    have ht := exec_next_ctl_stays_set hi h (k := 3) (by decide) hs fun hc => hq (hclear3 hc)
    refine ⟨ht, fun w hw hd => ?_⟩
    obtain rfl | ⟨-, rfl⟩ := sent_control_word hcmd hi h hw hd
    · exact ht
    · exact set_bits_or _ _ 3 hs

end Sys2Proof.Machine
end

section
/-! SUPPORT. Who writes what: the writers of each bit of `CTL` and of each element of the state, the repeated command,
and the channel an instruction does not load (spec/10_state.md R10, R12, R19; spec/20_memory.md R41). -/

namespace Sys2Proof.Machine

variable {i : Instr} {s t : State}

/-! ## The writers of the bits of `CTL` -/

theorem exec_next_ctl_changed (hi : ∀ ref, i ≠ .init ref) (h : exec i s = .next t) {k : Nat} (hk : k < 16)
    (hne : t.ctl.getLsbD k ≠ s.ctl.getLsbD k) :
    (t.ctl.getLsbD k = true ∧ (setMask i).getLsbD k = true) ∨
      (t.ctl.getLsbD k = false ∧ (clearMask i).getLsbD k = true) := by
  rw [exec_next_ctl hi h] at hne ⊢
  exact maskBits_changed hk hne

/-- What holds of the new value of a changed bit, from what each mask says of the instruction. -/
theorem exec_next_ctl_bit {P : Bool → Prop} (hi : ∀ ref, i ≠ .init ref) (h : exec i s = .next t) {k : Nat} (hk : k < 16)
    (hset : (setMask i).getLsbD k = true → P true) (hclear : (clearMask i).getLsbD k = true → P false)
    (hne : t.ctl.getLsbD k ≠ s.ctl.getLsbD k) : P (t.ctl.getLsbD k) := by
  obtain ⟨ht, hm⟩ | ⟨ht, hm⟩ := exec_next_ctl_changed hi h hk hne
  · rw [ht]; exact hset hm
  · rw [ht]; exact hclear hm

theorem xor_and_eq_zero {a b m : RegWord} (h : a &&& m = b &&& m) : (a ^^^ b) &&& m = 0#16 := by
  apply BitVec.eq_of_getLsbD_eq
  intro k _
  have hk : (a.getLsbD k && m.getLsbD k) = (b.getLsbD k && m.getLsbD k) := by
    rw [← BitVec.getLsbD_and, h, BitVec.getLsbD_and]
  rw [BitVec.getLsbD_and, BitVec.getLsbD_xor, BitVec.getLsbD_zero]
  revert hk
  generalize a.getLsbD k = x, b.getLsbD k = y, m.getLsbD k = z
  revert x y z
  decide

theorem and_mono_mask {a b m n : RegWord} (hn : m &&& n = n) (h : a &&& m = b &&& m) : a &&& n = b &&& n := by
  rw [← hn, ← BitVec.and_assoc, h, BitVec.and_assoc]

/-- The two sleep bits go together: SETMODE off sets both, the other modes clear both (R103 to R107). -/
theorem exec_next_sleep_bits (hi : ∀ ref, i ≠ .init ref) (h : exec i s = .next t) :
    (i = .setModeOff → t.ctl.getLsbD 7 = true ∧ t.ctl.getLsbD 6 = true) ∧
    (i ∈ [.setModeSine, .setModeTriangle, .setModeSquareHalf, .setModeSquareFull] →
      t.ctl.getLsbD 7 = false ∧ t.ctl.getLsbD 6 = false) := by
  rw [exec_next_ctl hi h, maskBits_getLsbD _ _ _ (by decide), maskBits_getLsbD _ _ _ (by decide)]
  constructor
  · rintro rfl
    simp [setMask]
  · intro hmem
    simp only [List.mem_cons, List.not_mem_nil, or_false] at hmem
    rcases hmem with rfl | rfl | rfl | rfl <;> simp [setMask, clearMask]

/-- Settles O27: a bit that changes is in a mask of the instruction, and the masks name their instructions. -/
theorem controlBitsHaveTheirWriters : Obligations.ControlBitsHaveTheirWriters := by
  intro i s t h
  constructor
  · rintro ref rfl
    obtain ⟨-, rfl⟩ := exec_init_next h
    rw [State.doInit_eq]
  intro hi
  obtain ⟨s13, s11, s10, s8, s76, s5, s3, s1⟩ := setMask_writers i
  obtain ⟨c11, c10, c8, c76, c5, c3, c1⟩ := clearMask_writers i
  have changed {k : Nat} (hk : k < 16) (hne : t.ctl.getLsbD k ≠ s.ctl.getLsbD k) := exec_next_ctl_changed hi h hk hne
  have c13 : (clearMask i).getLsbD 13 = false := by
    have := clearMask_reserved i
    simp [mask_bits] at this
    simp [this]
  refine ⟨?reserved, ?b28, ?fselect, ?pselect, ?reset, ?sleep, ?opbiten, ?div2, ?mode⟩
  case reserved =>
    refine xor_and_eq_zero ?_
    rw [exec_next_ctl hi h]
    exact (maskBits_and (and_mono_mask (n := 0xD215#16) (m := 0xF215#16) (b := 0#16) (by decide)
      (clearMask_reserved i)) (setMask_reserved i) _).symm
  case b28 =>
    exact exec_next_ctl_bit (P := fun b => b = true ∧ ∃ c f, i = .setFreq c f) hi h (by decide)
      (fun hm => ⟨rfl, s13 hm⟩) (fun hm => absurd (c13.symm.trans hm) Bool.false_ne_true)
  case fselect =>
    exact exec_next_ctl_bit (P := fun b => i = .setAFreq (if b then .ch1 else .ch0)) hi h (by decide) s11 c11
  case pselect =>
    exact exec_next_ctl_bit (P := fun b => i = .setAPhase (if b then .ch1 else .ch0)) hi h (by decide) s10 c10
  case reset => exact exec_next_ctl_bit (P := fun b => i = .reset b) hi h (by decide) s8 c8
  case sleep =>
    obtain ⟨hoff, hon⟩ := exec_next_sleep_bits hi h
    intro hne
    have hcase : i = .setModeOff ∨ i ∈ [.setModeSine, .setModeTriangle, .setModeSquareHalf, .setModeSquareFull] := by
      obtain hne | hne := hne
      · exact (changed (by decide) hne).imp (fun hm => s76 (.inl hm.2)) (fun hm => c76 (.inl hm.2))
      · exact (changed (by decide) hne).imp (fun hm => s76 (.inr hm.2)) (fun hm => c76 (.inr hm.2))
    obtain hi' | hi' := hcase
    · rw [(hoff hi').1, (hoff hi').2]
      exact ⟨rfl, hi'⟩
    · rw [(hon hi').1, (hon hi').2]
      exact ⟨rfl, hi'⟩
  case opbiten =>
    exact exec_next_ctl_bit (P := fun b => if b then i ∈ [Instr.setModeSquareHalf, .setModeSquareFull]
      else i ∈ [Instr.setModeOff, .setModeSine, .setModeTriangle]) hi h (by decide) s5 c5
  case div2 =>
    exact exec_next_ctl_bit (P := fun b => if b then i = .setModeSquareHalf else i = .setModeSquareFull) hi h
      (by decide) s3 c3
  case mode =>
    exact exec_next_ctl_bit (P := fun b => if b then i = .setModeTriangle
      else i ∈ [Instr.setModeOff, .setModeSine, .setModeSquareHalf, .setModeSquareFull]) hi h (by decide) s1 c1

/-! ## The writers of the elements of the state -/

theorem controlResult_mode_changed (hm : (controlResult i s).2.1 ≠ s.activeMode) :
    i ∈ [.setModeOff, .setModeSine, .setModeTriangle, .setModeSquareHalf, .setModeSquareFull] := by
  cases i with
  | reset hold => cases hold <;> exact absurd rfl hm
  | setModeOff => decide
  | setModeSine => decide
  | setModeTriangle => decide
  | setModeSquareHalf => decide
  | setModeSquareFull => decide
  | _ => exact absurd rfl hm

/-! ### The elements SETFREQ, SETPHASE and INIT leave -/

@[simp] theorem State.doSetFreq_inited (s : State) (c : Chan) (f : Bits64) : (s.doSetFreq c f).inited = s.inited := by
  cases c <;> rfl
@[simp] theorem State.doSetFreq_refclk (s : State) (c : Chan) (f : Bits64) : (s.doSetFreq c f).refclk = s.refclk := by
  cases c <;> rfl
@[simp] theorem State.doSetFreq_activeMode (s : State) (c : Chan) (f : Bits64) :
    (s.doSetFreq c f).activeMode = s.activeMode := by
  cases c <;> rfl
@[simp] theorem State.doSetFreq_draws (s : State) (c : Chan) (f : Bits64) :
    (s.doSetFreq c f).draws = s.drawsAfter f := by
  cases c <;> rfl
@[simp] theorem State.doSetFreq_commands (s : State) (c : Chan) (f : Bits64) :
    (s.doSetFreq c f).commands = s.commands := by
  cases c <;> rfl
@[simp] theorem State.doSetFreq_writes (s : State) (c : Chan) (f : Bits64) :
    (s.doSetFreq c f).writes = s.writes := by
  cases c <;> rfl

@[simp] theorem State.doSetPhase_inited (s : State) (c : Chan) (x : Tenths) :
    (s.doSetPhase c x).inited = s.inited := by
  cases c <;> rfl
@[simp] theorem State.doSetPhase_ctl (s : State) (c : Chan) (x : Tenths) : (s.doSetPhase c x).ctl = s.ctl := by
  cases c <;> rfl
@[simp] theorem State.doSetPhase_refclk (s : State) (c : Chan) (x : Tenths) :
    (s.doSetPhase c x).refclk = s.refclk := by
  cases c <;> rfl
@[simp] theorem State.doSetPhase_activeMode (s : State) (c : Chan) (x : Tenths) :
    (s.doSetPhase c x).activeMode = s.activeMode := by
  cases c <;> rfl
@[simp] theorem State.doSetPhase_draws (s : State) (c : Chan) (x : Tenths) :
    (s.doSetPhase c x).draws = s.draws := by
  cases c <;> rfl
@[simp] theorem State.doSetPhase_commands (s : State) (c : Chan) (x : Tenths) :
    (s.doSetPhase c x).commands = s.commands := by
  cases c <;> rfl
@[simp] theorem State.doSetPhase_writes (s : State) (c : Chan) (x : Tenths) :
    (s.doSetPhase c x).writes = s.writes := by
  cases c <;> rfl

theorem State.chan_doSetFreq_self (s : State) (c : Chan) (f : Bits64) :
    (s.doSetFreq c f).chan c = { s.chan c with reqf := f, freqw := s.frequencyWord f, freqWritten := true } := by
  cases c <;> rfl

/-- Two different channels are 0 and 1, in one order or the other. -/
theorem chan_ne_cases {P : Chan → Chan → Prop} (h01 : P .ch0 .ch1) (h10 : P .ch1 .ch0) {c d : Chan} (h : d ≠ c) :
    P c d := by
  cases c with
  | ch0 =>
    cases d with
    | ch0 => exact absurd rfl h
    | ch1 => exact h01
  | ch1 =>
    cases d with
    | ch0 => exact h10
    | ch1 => exact absurd rfl h

theorem State.chan_doSetFreq_ne (s : State) {c d : Chan} (h : d ≠ c) (f : Bits64) :
    (s.doSetFreq c f).chan d = s.chan d :=
  chan_ne_cases (P := fun c d => (s.doSetFreq c f).chan d = s.chan d) rfl rfl h

theorem State.chan_doSetPhase_self (s : State) (c : Chan) (x : Tenths) :
    (s.doSetPhase c x).chan c = { s.chan c with reqp := x, phasew := phaseWord x, phaseWritten := true } := by
  cases c <;> rfl

theorem State.chan_doSetPhase_ne (s : State) {c d : Chan} (h : d ≠ c) (x : Tenths) :
    (s.doSetPhase c x).chan d = s.chan d :=
  chan_ne_cases (P := fun c d => (s.doSetPhase c x).chan d = s.chan d) rfl rfl h

theorem State.doInit_ch1 (s : State) (ref : Bits64) : (s.doInit ref).ch1 = s.ch1 := by rw [State.doInit_eq]

/-- The channel whose elements an instruction changes: the one SETFREQ or SETPHASE names, or channel 0 by INIT. -/
theorem exec_next_chan_changed (h : exec i s = .next t) {c : Chan} (hne : t.chan c ≠ s.chan c) :
    (∃ f, i = .setFreq c f ∧ t = s.doSetFreq c f) ∨ (∃ x, i = .setPhase c x ∧ t = s.doSetPhase c x) ∨
      c = .ch0 ∧ ∃ ref, i = .init ref := by
  obtain ⟨-, -, rfl⟩ | ⟨d, f, rfl, -, rfl⟩ | ⟨d, x, rfl, -, rfl⟩ | ⟨ref, rfl, -, rfl⟩ | ⟨-, rfl⟩ := exec_next_cases h
  · cases c <;> exact absurd rfl hne
  · obtain rfl : c = d := by_contra fun hcd => hne (s.chan_doSetFreq_ne hcd f)
    exact .inl ⟨f, rfl, rfl⟩
  · obtain rfl : c = d := by_contra fun hcd => hne (s.chan_doSetPhase_ne hcd x)
    exact .inr (.inl ⟨x, rfl, rfl⟩)
  · cases c with
    | ch0 => exact .inr (.inr ⟨rfl, ref, rfl⟩)
    | ch1 => exact absurd (s.doInit_ch1 ref) hne
  · cases c <;> exact absurd rfl hne

/-- The elements outside the channels (R10). -/
theorem exec_next_elements (h : exec i s = .next t) :
    ((∃ ref, i = .init ref) ∧ t.inited = true ∧ i = .init t.refclk ∨ t.inited = s.inited ∧ t.refclk = s.refclk) ∧
    t.commands = s.commands ∧ t.writes = s.writes := by
  obtain ⟨-, -, rfl⟩ | ⟨c, f, rfl, -, rfl⟩ | ⟨c, x, rfl, -, rfl⟩ | ⟨ref, rfl, -, rfl⟩ | ⟨-, rfl⟩ := exec_next_cases h
  · exact ⟨.inr ⟨rfl, rfl⟩, rfl, rfl⟩
  · exact ⟨.inr ⟨s.doSetFreq_inited c f, s.doSetFreq_refclk c f⟩, s.doSetFreq_commands c f, s.doSetFreq_writes c f⟩
  · exact ⟨.inr ⟨s.doSetPhase_inited c x, s.doSetPhase_refclk c x⟩, s.doSetPhase_commands c x, s.doSetPhase_writes c x⟩
  · rw [State.doInit_eq]
    exact ⟨.inl ⟨⟨ref, rfl⟩, rfl, rfl⟩, rfl, rfl⟩
  · exact ⟨.inr ⟨rfl, rfl⟩, rfl, rfl⟩

theorem exec_next_mode_changed (h : exec i s = .next t) (hne : t.activeMode ≠ s.activeMode) :
    (∃ ref, i = .init ref) ∨
      i ∈ [.setModeOff, .setModeSine, .setModeTriangle, .setModeSquareHalf, .setModeSquareFull] := by
  obtain ⟨-, -, rfl⟩ | ⟨c, f, rfl, -, rfl⟩ | ⟨c, x, rfl, -, rfl⟩ | ⟨ref, rfl, -, -⟩ | ⟨-, rfl⟩ := exec_next_cases h
  · exact .inr (controlResult_mode_changed hne)
  · exact absurd (s.doSetFreq_activeMode c f) hne
  · exact absurd (s.doSetPhase_activeMode c x) hne
  · exact .inl ⟨ref, rfl⟩
  · exact absurd rfl hne

/-- Settles O28: the elements outside the channels, the mode, and the channel changed. -/
theorem stateElementsHaveTheirWriters : Obligations.StateElementsHaveTheirWriters := by
  intro i s t h
  obtain ⟨helem, hcommands, hwrites⟩ := exec_next_elements h
  refine ⟨fun hs => ?rises, fun hne => ?inited, fun hne => ?refclk, exec_next_mode_changed h, fun c hne => ?freq,
    fun c hne => ?phase, hcommands, hwrites⟩
  case rises =>
    obtain ⟨-, ht, -⟩ | ⟨ht, -⟩ := helem
    · exact ht
    · rw [ht, hs]
  case inited =>
    obtain ⟨hi, -, -⟩ | ⟨ht, -⟩ := helem
    · exact hi
    · exact absurd ht hne
  case refclk =>
    obtain ⟨-, -, hi⟩ | ⟨-, ht⟩ := helem
    · exact hi
    · exact absurd ht hne
  case freq =>
    have hchan : t.chan c ≠ s.chan c := fun he => by simp [he] at hne
    obtain ⟨f, rfl, rfl⟩ | ⟨x, rfl, rfl⟩ | hinit := exec_next_chan_changed h hchan
    · left
      rw [State.chan_doSetFreq_self]
    · rw [State.chan_doSetPhase_self] at hne
      simp at hne
    · exact .inr hinit
  case phase =>
    have hchan : t.chan c ≠ s.chan c := fun he => by simp [he] at hne
    obtain ⟨f, rfl, rfl⟩ | ⟨x, rfl, rfl⟩ | hinit := exec_next_chan_changed h hchan
    · rw [State.chan_doSetFreq_self] at hne
      simp at hne
    · left
      rw [State.chan_doSetPhase_self]
    · exact .inr hinit

/-! ## A command issued again -/

theorem exec_next_of_inited (hi : ∀ ref, i ≠ .init ref) (hs : s.inited = true) : ∃ t, exec i s = .next t := by
  cases h : exec i s with
  | next t => exact ⟨t, rfl⟩
  | fault r => cases r
  | refused r =>
    obtain ⟨-, ⟨-, hs', -⟩ | ⟨-, ref, he, -⟩⟩ := exec_refused_cases h
    · rw [hs] at hs'
      cases hs'
    · exact absurd he (hi ref)

/-- What a control-register operation answers on an initialised state. -/
theorem exec_of_isControlOp (hi : isControlOp i = true) (hs : s.inited = true) :
    exec i s = .next { s with
      ctl := (controlResult i s).1
      activeMode := (controlResult i s).2.1
      tx := s.tx ++ frames (controlResult i s).2.2 } := by
  obtain ⟨t, ht⟩ := exec_next_of_inited (i := i) (by rintro ref rfl; cases hi) hs
  rw [ht, (exec_next_of_isControlOp hi ht).2]

theorem exec_of_isCommand_false (hi : isCommand i = false) (s : State) :
    exec i s = .next { s with tx := s.tx ++ frames [registerWord i] } := by
  cases i <;> cases hi <;> rfl

theorem controlResult_congr (hctl : t.ctl = s.ctl) (hmode : t.activeMode = s.activeMode) :
    controlResult i t = controlResult i s := by
  cases i with
  | reset hold => cases hold <;> simp only [controlResult, hctl, hmode]
  | _ => simp only [controlResult, hctl, hmode]

/-- Clearing the reset bit is undone by setting it. -/
theorem set_clear_reset (c : RegWord) : (c &&& ~~~0x0100#16) ||| 0x0100#16 = c ||| 0x0100#16 := by
  apply BitVec.eq_of_getLsbD_eq
  intro k hk
  simp only [BitVec.getLsbD_and, BitVec.getLsbD_or, BitVec.getLsbD_not, hk, decide_true, Bool.true_and]
  cases BitVec.getLsbD 0x0100#16 k <;> simp

/-- A control-register operation on the control register and mode it has left leaves them so and sends the same
words. -/
theorem controlResult_idem (hi : isControlOp i = true) (hctl : t.ctl = (controlResult i s).1)
    (hmode : t.activeMode = (controlResult i s).2.1) : controlResult i t = controlResult i s := by
  have hsame : (controlResult i t).1 = (controlResult i s).1 := by
    rw [controlResult_ctl_eq_maskBits hi, hctl, controlResult_ctl_eq_maskBits hi, maskBits_idem]
  refine Prod.ext hsame (Prod.ext ?mode ?words)
  case mode =>
    cases i with
    | reset hold => cases hold <;> exact hmode
    | setAFreq => exact hmode
    | setAPhase => exact hmode
    | _ => cases hi <;> rfl
  case words =>
    by_cases hr : i = .reset false
    · subst hr
      have hset : t.ctl ||| 0x0100#16 = s.ctl ||| 0x0100#16 := by rw [hctl]; exact set_clear_reset s.ctl
      show [t.ctl ||| 0x0100#16, (controlResult (.reset false) t).1] =
        [s.ctl ||| 0x0100#16, (controlResult (.reset false) s).1]
      rw [hset, hsame]
    · obtain ht | ⟨he, -⟩ := controlResult_words (s := t) hi
      · obtain hs | ⟨he, -⟩ := controlResult_words (s := s) hi
        · rw [ht, hs, hsame]
        · exact absurd he hr
      · exact absurd he hr

theorem exec_control_again (hi : isControlOp i = true) (ht : t.inited = true) (hctl : t.ctl = (controlResult i s).1)
    (hmode : t.activeMode = (controlResult i s).2.1) :
    exec i t = .next { t with tx := t.tx ++ frames (sentWords i s) } := by
  rw [exec_of_isControlOp hi ht, controlResult_idem hi hctl hmode, ← hctl, ← hmode, sentWords_of_isControlOp hi]

/-- The word of a request is drawn anew only if the draws move on, so a request that drew nothing has the same word
again. -/
theorem State.frequencyWord_again {f : Bits64} (hclock : t.refclk = s.refclk) (hdraws : s.drawsAfter f = s.draws) :
    t.frequencyWord f = s.frequencyWord f ∧ t.drawsAfter f = t.draws := by
  cases hw : frequencyWord? f s.refclk with
  | some w =>
    have ht : frequencyWord? f t.refclk = some w := by rw [hclock, hw]
    rw [(State.frequencyWord_of_some ht).1, (State.frequencyWord_of_some hw).1]
    exact ⟨rfl, (State.frequencyWord_of_some ht).2⟩
  | none =>
    rw [(State.frequencyWord_of_none hw).2] at hdraws
    exact absurd hdraws (Nat.succ_ne_self _)

theorem setBits_idem (m c : RegWord) : setBits m (setBits m c) = setBits m c := by
  rw [setBits, setBits, BitVec.or_assoc, BitVec.or_self]

theorem State.doSetFreq_again {c : Chan} {f : Bits64} (hdraws : s.drawsAfter f = s.draws) :
    (s.doSetFreq c f).doSetFreq c f =
      { s.doSetFreq c f with tx := (s.doSetFreq c f).tx ++ frames (sentWords (.setFreq c f) s) } := by
  obtain ⟨hword, hafter⟩ := State.frequencyWord_again (s.doSetFreq_refclk c f) hdraws
  rw [State.doSetFreq_eq (s.doSetFreq c f), hword, hafter, State.doSetFreq_ctl, setBits_idem]
  cases c <;> rfl

theorem State.doSetPhase_again (s : State) (c : Chan) (x : Tenths) :
    (s.doSetPhase c x).doSetPhase c x =
      { s.doSetPhase c x with tx := (s.doSetPhase c x).tx ++ frames (sentWords (.setPhase c x) s) } := by
  rw [State.doSetPhase_eq (s.doSetPhase c x)]
  cases c <;> rfl

theorem State.doInit_again {ref : Bits64} (hdraws : (s.doInit ref).draws = s.draws) :
    (s.doInit ref).doInit ref =
      { s.doInit ref with tx := (s.doInit ref).tx ++ frames (sentWords (.init ref) s) } := by
  have hafter : { s with refclk := ref }.drawsAfter initFreq = s.draws := by
    rw [State.doInit_eq] at hdraws
    exact hdraws
  obtain ⟨hword, hagain⟩ := State.frequencyWord_again (s := { s with refclk := ref })
    (t := { s.doInit ref with refclk := ref }) rfl hafter
  rw [State.doInit_eq (s.doInit ref), hword, hagain, State.doInit_eq s]
  rfl

/-- Settles O26: each of the four shapes of a command is the same again on the state it has left. -/
theorem repeatedCommandSendsTheSameWords : Obligations.RepeatedCommandSendsTheSameWords := by
  intro i s t hcmd h hdraws
  refine ⟨sentWords i s, exec_next_tx h, ?_⟩
  obtain ⟨hc, hs, rfl⟩ | ⟨c, f, rfl, hs, rfl⟩ | ⟨c, x, rfl, hs, rfl⟩ | ⟨ref, rfl, hv, rfl⟩ | ⟨hc, -⟩ :=
    exec_next_cases h
  · exact exec_control_again hc hs rfl rfl
  · rw [exec_setFreq_of_inited ((s.doSetFreq_inited c f).trans hs), State.doSetFreq_again]
    rw [← s.doSetFreq_draws c f, hdraws]
  · rw [exec_setPhase_of_inited ((s.doSetPhase_inited c x).trans hs), State.doSetPhase_again]
  · rw [exec_init_of_valid hv, State.doInit_again hdraws]
  · rw [hcmd] at hc
    cases hc

/-! ## The channel an instruction does not load -/

theorem controlResult_setChan (i : Instr) (s : State) (c : Chan) (v : Channel) :
    controlResult i (s.setChan c v) = controlResult i s :=
  controlResult_congr (s.setChan_ctl c v) (s.setChan_activeMode c v)

theorem State.doSetFreq_setChan {c d : Chan} (h : d ≠ c) (s : State) (v : Channel) (f : Bits64) :
    (s.setChan c v).doSetFreq d f = (s.doSetFreq d f).setChan c v :=
  chan_ne_cases (P := fun c d => (s.setChan c v).doSetFreq d f = (s.doSetFreq d f).setChan c v) rfl rfl h

theorem State.doSetPhase_setChan {c d : Chan} (h : d ≠ c) (s : State) (v : Channel) (x : Tenths) :
    (s.setChan c v).doSetPhase d x = (s.doSetPhase d x).setChan c v :=
  chan_ne_cases (P := fun c d => (s.setChan c v).doSetPhase d x = (s.doSetPhase d x).setChan c v) rfl rfl h

theorem State.doInit_setChan_ch1 (s : State) (v : Channel) (ref : Bits64) :
    (s.setChan .ch1 v).doInit ref = (s.doInit ref).setChan .ch1 v := by
  rw [State.doInit_eq, State.doInit_eq]
  rfl

/-- Settles O30: each operation commutes with replacing a channel it does not load. -/
theorem operationsIgnoreTheOtherChannel : Obligations.OperationsIgnoreTheOtherChannel := by
  intro i c v s t hfreq hphase hinit h
  obtain ⟨hc, hs, rfl⟩ | ⟨d, f, rfl, hs, rfl⟩ | ⟨d, x, rfl, hs, rfl⟩ | ⟨ref, rfl, hv, rfl⟩ | ⟨hc, rfl⟩ :=
    exec_next_cases h
  · rw [exec_of_isControlOp hc ((s.setChan_inited c v).trans hs), controlResult_setChan]
    cases c <;> rfl
  · rw [exec_setFreq_of_inited ((s.setChan_inited c v).trans hs), State.doSetFreq_setChan]
    rintro rfl
    exact hfreq f rfl
  · rw [exec_setPhase_of_inited ((s.setChan_inited c v).trans hs), State.doSetPhase_setChan]
    rintro rfl
    exact hphase x rfl
  · cases c with
    | ch0 => exact absurd rfl (hinit rfl ref)
    | ch1 => rw [exec_init_of_valid hv, State.doInit_setChan_ch1]
  · rw [exec_of_isCommand_false hc]
    cases c <;> rfl

end Sys2Proof.Machine
end

section
/-! SUPPORT. Invariants of every step: the reachable values of `CTL` (spec/10_state.md R13), the mirror (R14), the
lifecycle (R22, R23; spec/70_reset_and_hazards.md R170) and the cached words (R18). -/

namespace Sys2Proof.Machine

variable {i : Instr} {s t : State}

/-! ## A step is an instruction -/

/-- What every instruction keeps, whatever it reads of the fetched words, every step keeps. -/
theorem step_preserves {P : State → Prop} (hexec : ∀ i s t, P s → exec i s = .next t → P t)
    (hwrites : ∀ s ws, P s → P { s with writes := ws }) (hcommands : ∀ s cs, P s → P { s with commands := cs })
    (hs : P s) (h : step s = .next t) : P t := by
  obtain ⟨-, -, rfl⟩ | ⟨w, ws, i, -, -, hx⟩ | ⟨c, cs, i, -, -, -, hx⟩ := step_next_cases h
  · exact hs
  · exact hexec i _ t (hwrites s ws hs) hx
  · exact hexec i _ t (hcommands s cs hs) hx

/-- From an idle state a step runs a command, if it runs anything, and leaves an idle state. -/
theorem idle_step_cases (hidle : Idle s) (h : step s = .next t) :
    Idle t ∧ (t = s ∨ ∃ cs i, isCommand i = true ∧ exec i { s with commands := cs } = .next t) := by
  obtain ⟨-, -, rfl⟩ | ⟨w, ws, i, hw, -, -⟩ | ⟨c, cs, i, hw, -, hd, hx⟩ := step_next_cases h
  · exact ⟨hidle, .inl rfl⟩
  · rw [hidle] at hw
    cases hw
  · exact ⟨(exec_next_elements hx).2.2.trans hw, .inr ⟨cs, i, isCommand_of_decodeCommand hd, hx⟩⟩

/-! ## The values of `CTL` -/

theorem LegalControl.maskBits {clear set w : RegWord} {m : Mode} (hc : clear &&& 0xF2FF#16 = 0#16)
    (hs : set &&& 0xD2FF#16 = 0#16) (h : LegalControl w m) : LegalControl (maskBits clear set w) m := by
  obtain ⟨hzero, hb28, hmode, hhalf, hfull⟩ := h
  have hbit3 : (Machine.maskBits clear set w).getLsbD 3 = w.getLsbD 3 := by
    simp [mask_bits] at hc hs
    simp [Machine.maskBits, hc, hs]
  refine ⟨?_, ?_, ?_, ?_, ?_⟩
  · rw [maskBits_and (and_mono_mask (m := 0xF2FF#16) (b := 0#16) (by decide) hc)
      (and_mono_mask (m := 0xD2FF#16) (b := 0#16) (by decide) hs), hzero]
  · simp [mask_bits] at hc hb28
    simp [Machine.maskBits, mask_bits, hc, hb28]
  · rw [maskBits_and (and_mono_mask (m := 0xF2FF#16) (b := 0#16) (by decide) hc)
      (and_mono_mask (m := 0xD2FF#16) (b := 0#16) (by decide) hs), hmode]
  · rw [hbit3]; exact hhalf
  · rw [hbit3]; exact hfull

/-- SETMODE puts the four waveform and sleep bits of its mode, whatever they were (R102). -/
theorem legalControl_modeBits {w : RegWord} (h : OnControlRow w) (m : Mode) : LegalControl (modeBits m w) m := by
  simp [OnControlRow, mask_bits] at h
  cases m <;>
    simp [LegalControl, mask_bits, modeBits, modePattern, Machine.setBits, clearBits, h]

theorem legalControl_seed : LegalControl 0x2000#16 .sine :=
  ⟨by decide, by decide, by decide, nofun, nofun⟩

theorem LegalControl.controlResult (hi : isControlOp i = true) (h : LegalControl s.ctl s.activeMode) :
    LegalControl (controlResult i s).1 (controlResult i s).2.1 := by
  have hrow := h.onControlRow
  have hctl := controlResult_ctl_eq_maskBits (s := s) hi
  cases i with
  | reset hold => cases hold <;> (rw [hctl]; exact h.maskBits (by decide) (by decide))
  | setModeOff => exact legalControl_modeBits hrow .off
  | setModeSine => exact legalControl_modeBits hrow .sine
  | setModeTriangle => exact legalControl_modeBits hrow .triangle
  | setModeSquareHalf => exact legalControl_modeBits hrow .squareHalf
  | setModeSquareFull => exact legalControl_modeBits hrow .squareFull
  | setAFreq c => cases c <;> (rw [hctl]; exact h.maskBits (by decide) (by decide))
  | setAPhase c => cases c <;> (rw [hctl]; exact h.maskBits (by decide) (by decide))
  | _ => cases hi

theorem LegalControl.setB28 {w : RegWord} {m : Mode} (h : LegalControl w m) : LegalControl (setBits b28Bit w) m := by
  rw [Machine.setBits, ← maskBits_zero_left]
  exact h.maskBits (by decide) (by decide)

theorem CtlLegal.exec (hs : CtlLegal s) (h : exec i s = .next t) : CtlLegal t := by
  obtain ⟨hc, -, rfl⟩ | ⟨c, f, rfl, -, rfl⟩ | ⟨c, x, rfl, -, rfl⟩ | ⟨ref, rfl, -, rfl⟩ | ⟨-, rfl⟩ := exec_next_cases h
  · exact fun hinit => (hs hinit).controlResult hc
  · intro hinit
    rw [State.doSetFreq_ctl, State.doSetFreq_activeMode]
    exact (hs (by simpa using hinit)).setB28
  · intro hinit
    rw [State.doSetPhase_ctl, State.doSetPhase_activeMode]
    exact hs (by simpa using hinit)
  · rw [State.doInit_eq]
    exact fun _ => legalControl_seed
  · exact hs

/-- Settles O35: every instruction keeps it, and fetching touches neither `CTL` nor the mode. -/
theorem stepKeepsCtlLegal : Obligations.StepKeepsCtlLegal := fun _ _ hs h =>
  step_preserves (P := CtlLegal) (fun _ _ _ hs h => hs.exec h) (fun _ _ hs => hs) (fun _ _ hs => hs) hs h

/-! ## The mirror -/

theorem dest_eq_control_iff (w : RegWord) : dest w = .control ↔ w.extractLsb' 14 2 = 0#2 := by
  unfold dest
  split_ifs with h <;> simp [h]

theorem controlWords_append (a b : List RegWord) : controlWords (a ++ b) = controlWords a ++ controlWords b :=
  List.filter_append ..

theorem controlWords_of_control {ws : List RegWord} (h : ∀ w ∈ ws, dest w = .control) : controlWords ws = ws := by
  rw [controlWords, List.filter_eq_self]
  exact fun w hw => beq_iff_eq.mpr ((dest_eq_control_iff w).mp (h w hw))

theorem controlWords_of_data {ws : List RegWord} (h : ∀ w ∈ ws, dest w ≠ .control) : controlWords ws = [] := by
  rw [controlWords, List.filter_eq_nil_iff]
  exact fun w hw he => h w hw ((dest_eq_control_iff w).mpr (beq_iff_eq.mp he))

/-- The control words that a command sends end with the `CTL` it leaves; only SETPHASE sends none, and it leaves `CTL`
alone. -/
theorem controlWords_sentWords (hcmd : isCommand i = true) (hlegal : CtlLegal s) (h : exec i s = .next t) :
    (controlWords (sentWords i s)).getLast? = some t.ctl ∨
      controlWords (sentWords i s) = [] ∧ t.ctl = s.ctl ∧ s.inited = true := by
  obtain ⟨hc, -, -⟩ | ⟨c, f, rfl, hs, rfl⟩ | ⟨c, x, rfl, hs, rfl⟩ | ⟨ref, rfl, -, rfl⟩ | ⟨hc, -⟩ := exec_next_cases h
  · obtain ⟨ws, hws, hdest, hlast⟩ := controlOperationsSendOnlyControlWords i s t hc hlegal h
    obtain rfl : ws = sentWords i s := List.append_cancel_left (hws.symm.trans (exec_next_words h))
    rw [controlWords_of_control hdest]
    exact .inl hlast
  · left
    have hhead : controlWords [setBits b28Bit s.ctl] = [setBits b28Bit s.ctl] :=
      controlWords_of_control (by simpa using (hlegal hs).dest_setBits_b28)
    have htail : controlWords [freqDataWord c (lo14 (s.frequencyWord f)),
        freqDataWord c (hi14 (s.frequencyWord f))] = [] :=
      controlWords_of_data (by simp [dest_freqDataWord_ne_control])
    rw [sentWords, ← List.singleton_append, controlWords_append, hhead, htail, State.doSetFreq_ctl]
    rfl
  · right
    exact ⟨controlWords_of_data (by simp [sentWords, dest_phaseDataWord_ne_control]), s.doSetPhase_ctl c x, hs⟩
  · left
    have htail : controlWords [0x2100#16, 0x2000#16, 0x2000#16, 0x2000#16, 0x2000#16] =
        [0x2100#16, 0x2000#16, 0x2000#16, 0x2000#16, 0x2000#16] := by decide
    have hsplit : sentWords (.init ref) s =
        (sentWords (.init ref) s).take 6 ++ [0x2100#16, 0x2000#16, 0x2000#16, 0x2000#16, 0x2000#16] := rfl
    rw [hsplit, controlWords_append, htail, List.getLast?_append, State.doInit_eq]
    rfl
  · rw [hcmd] at hc
    cases hc

theorem MirrorExact.exec (hcmd : isCommand i = true) (hlegal : CtlLegal s) (hs : MirrorExact s)
    (h : exec i s = .next t) : MirrorExact t := by
  intro _
  rw [exec_next_words h, controlWords_append, List.getLast?_append]
  obtain hlast | ⟨hnone, hctl, hinit⟩ := controlWords_sentWords hcmd hlegal h
  · rw [hlast]; rfl
  · rw [hnone, hctl, hs hinit]; rfl

/-- Settles O37: the control words a command sends end with `CTL`, and nothing else is sent between commands. -/
theorem stepKeepsTheMirrorExact : Obligations.StepKeepsTheMirrorExact := by
  intro s t hidle hlegal hs h
  obtain ⟨ht, rfl | ⟨cs, i, hcmd, hx⟩⟩ := idle_step_cases hidle h
  · exact ⟨ht, hs⟩
  · exact ⟨ht, MirrorExact.exec (s := { s with commands := cs }) hcmd hlegal hs hx⟩

/-! ## The lifecycle -/

/-- A command that completes leaves an initialised state. -/
theorem exec_next_inited (hcmd : isCommand i = true) (h : exec i s = .next t) : t.inited = true := by
  obtain ⟨-, hs, rfl⟩ | ⟨c, f, rfl, hs, rfl⟩ | ⟨c, x, rfl, hs, rfl⟩ | ⟨ref, rfl, -, rfl⟩ | ⟨hc, -⟩ := exec_next_cases h
  · exact hs
  · rw [State.doSetFreq_inited, hs]
  · rw [State.doSetPhase_inited, hs]
  · rw [State.doInit_eq]
  · rw [hcmd] at hc
    cases hc

/-- No instruction takes a mark away (R24). -/
theorem exec_next_marks (h : exec i s = .next t) (c : Chan) :
    ((s.chan c).freqWritten = true → (t.chan c).freqWritten = true) ∧
    ((s.chan c).phaseWritten = true → (t.chan c).phaseWritten = true) := by
  by_cases hne : t.chan c = s.chan c
  · rw [hne]; exact ⟨id, id⟩
  · obtain ⟨f, rfl, rfl⟩ | ⟨x, rfl, rfl⟩ | ⟨rfl, ref, rfl⟩ := exec_next_chan_changed h hne
    · rw [State.chan_doSetFreq_self]; exact ⟨fun _ => rfl, id⟩
    · rw [State.chan_doSetPhase_self]; exact ⟨id, fun _ => rfl⟩
    · rw [(exec_init_next h).2, State.doInit_eq]; exact ⟨fun _ => rfl, fun _ => rfl⟩

theorem LifecycleOk.exec (hcmd : isCommand i = true) (hs : LifecycleOk s) (h : exec i s = .next t) : LifecycleOk t := by
  have ht := exec_next_inited hcmd h
  refine ⟨fun hf => absurd (ht.symm.trans hf) (by decide), fun _ => ?_⟩
  by_cases hi : ∃ ref, i = .init ref
  · obtain ⟨ref, rfl⟩ := hi
    obtain ⟨hv, rfl⟩ := exec_init_next h
    rw [State.doInit_eq]
    exact ⟨hv, rfl, rfl⟩
  · obtain ⟨⟨hinit, -, -⟩ | ⟨hinited, hclock⟩, -, -⟩ := exec_next_elements h
    · exact absurd hinit hi
    · obtain ⟨hv, hfreq, hphase⟩ := hs.2 (hinited.symm.trans ht)
      obtain ⟨mfreq, mphase⟩ := exec_next_marks h .ch0
      rw [hclock]
      exact ⟨hv, mfreq hfreq, mphase hphase⟩

/-- Settles O39: only INIT runs before the first INIT, and after it the clock changes by INIT only and no mark is
lost. -/
theorem stepKeepsTheLifecycle : Obligations.StepKeepsTheLifecycle := by
  intro s t hidle hs h
  obtain ⟨ht, rfl | ⟨cs, i, hcmd, hx⟩⟩ := idle_step_cases hidle h
  · exact ⟨ht, hs⟩
  · exact ⟨ht, LifecycleOk.exec (s := { s with commands := cs }) hcmd hs hx⟩

/-! ## The cached words -/

theorem PhaseCacheOk.exec (hs : PhaseCacheOk s) (h : exec i s = .next t) : PhaseCacheOk t := by
  intro c
  by_cases hne : t.chan c = s.chan c
  · rw [hne]; exact hs c
  · obtain ⟨f, rfl, rfl⟩ | ⟨x, rfl, rfl⟩ | ⟨rfl, ref, rfl⟩ := exec_next_chan_changed h hne
    · rw [State.chan_doSetFreq_self]; exact hs c
    · rw [State.chan_doSetPhase_self]; exact fun _ => rfl
    · rw [(exec_init_next h).2, State.doInit_eq]; exact fun _ => rfl

/-- SETFREQ stores the codec's word where there is one, whatever was there. -/
theorem FreqCacheOk.doSetFreq (s : State) (c : Chan) (f : Bits64) : FreqCacheOk (s.doSetFreq c f) c := by
  intro _ w
  rw [State.chan_doSetFreq_self, State.doSetFreq_refclk]
  exact fun hw => (State.frequencyWord_of_some hw).1

theorem FreqCacheOk.doInit (s : State) (ref : Bits64) : FreqCacheOk (s.doInit ref) .ch0 := by
  intro _ w
  rw [State.doInit_eq]
  exact fun hw => (State.frequencyWord_of_some (s := { s with refclk := ref }) hw).1

theorem FreqCacheOk.exec {c : Chan} (hs : FreqCacheOk s c) (hi : ∀ ref, i ≠ .init ref) (h : exec i s = .next t) :
    FreqCacheOk t c := by
  have hclock : t.refclk = s.refclk := by
    obtain ⟨⟨⟨ref, hinit⟩, -, -⟩ | ⟨-, hclock⟩, -, -⟩ := exec_next_elements h
    · exact absurd hinit (hi ref)
    · exact hclock
  by_cases hne : t.chan c = s.chan c
  · unfold FreqCacheOk
    rw [hne, hclock]
    exact hs
  · obtain ⟨f, rfl, rfl⟩ | ⟨x, rfl, rfl⟩ | ⟨-, ref, rfl⟩ := exec_next_chan_changed h hne
    · exact FreqCacheOk.doSetFreq s c f
    · unfold FreqCacheOk
      rw [State.chan_doSetPhase_self, hclock]
      exact hs
    · exact absurd rfl (hi ref)

theorem FreqCacheOk.exec_ch0 (hs : FreqCacheOk s .ch0) (h : Machine.exec i s = .next t) : FreqCacheOk t .ch0 := by
  by_cases hi : ∀ ref, i ≠ .init ref
  · exact hs.exec hi h
  · obtain ⟨ref, hi⟩ := not_forall.mp hi
    obtain rfl := not_not.mp hi
    rw [(exec_init_next h).2]
    exact FreqCacheOk.doInit s ref

/-- Settles O40: each instruction keeps the words of the channels, and those that store make them anew. -/
theorem cachedWordsStayTheWordsOfTheRequests : Obligations.CachedWordsStayTheWordsOfTheRequests := by
  refine ⟨fun s t hs h => ?phase, fun s t hs h => ?freq0, fun i s t hi hs h => ?freq1⟩
  case phase =>
    exact step_preserves (P := PhaseCacheOk) (fun _ _ _ hs h => hs.exec h) (fun _ _ hs => hs) (fun _ _ hs => hs) hs h
  case freq0 =>
    exact step_preserves (P := (FreqCacheOk · .ch0)) (fun _ _ _ hs h => hs.exec_ch0 h) (fun _ _ hs => hs)
      (fun _ _ hs => hs) hs h
  case freq1 =>
    obtain hs | ⟨f, rfl⟩ := hs
    · exact hs.exec hi h
    · obtain ⟨-, rfl⟩ := State.whenInited_next.mp h
      exact FreqCacheOk.doSetFreq s .ch1 f

end Sys2Proof.Machine
end

section
/-! SUPPORT. The picture of the chip replayed from `TX` (spec/20_memory.md R36, spec/30_encoding.md R52, R55): what each
run of words does to it, its agreement with the cached values, and the bits it ignores. -/

namespace Sys2Proof.Machine

variable {i : Instr} {s t : State} {p : Picture}

/-! ## The picture after a run of words -/

/-- The picture after more words. -/
def Picture.receiveAll (p : Picture) (ws : List RegWord) : Picture := ws.foldl Picture.receive p

theorem replay_append (a b : List RegWord) : replay (a ++ b) = (replay a).receiveAll b := List.foldl_append ..

theorem Picture.receiveAll_append (p : Picture) (a b : List RegWord) :
    p.receiveAll (a ++ b) = (p.receiveAll a).receiveAll b := List.foldl_append ..

@[simp] theorem Picture.chan_setChan_self (p : Picture) (c : Chan) (v : ChipChannel) : (p.setChan c v).chan c = v := by
  cases c <;> rfl

theorem Picture.chan_setChan_ne (p : Picture) {c d : Chan} (h : d ≠ c) (v : ChipChannel) :
    (p.setChan c v).chan d = p.chan d :=
  chan_ne_cases (P := fun c d => (p.setChan c v).chan d = p.chan d) rfl rfl h

@[simp] theorem Picture.setChan_control (p : Picture) (c : Chan) (v : ChipChannel) :
    (p.setChan c v).control = p.control := by
  cases c <;> rfl

theorem receive_control_chan {w : RegWord} (h : dest w = .control) (p : Picture) (c : Chan) :
    (p.receive w).chan c = p.chan c := by
  rw [receive_control h]
  cases c <;> rfl

/-- Control words leave the channels alone, and the last one is what the control register shows. -/
theorem receiveAll_control {ws : List RegWord} (h : ∀ w ∈ ws, dest w = .control) (p : Picture) :
    (∀ c, (p.receiveAll ws).chan c = p.chan c) ∧
    (p.receiveAll ws).control = (ws.getLast?.map controlFields).or p.control := by
  induction ws using List.reverseRecOn with
  | nil => exact ⟨fun _ => rfl, rfl⟩
  | append_singleton ws w ih =>
    obtain ⟨hchan, -⟩ := ih fun v hv => h v (List.mem_append_left _ hv)
    have hw := h w (List.mem_append_right _ (List.mem_singleton_self w))
    rw [Picture.receiveAll_append]
    refine ⟨fun c => (receive_control_chan hw _ c).trans (hchan c), ?_⟩
    rw [List.getLast?_concat]
    show ((p.receiveAll ws).receive w).control = _
    rw [receive_control hw]
    rfl

/-- The three words of SETFREQ: the control register shows the first, the channel both halves, and nothing else
changes. -/
theorem receiveAll_freq {w : RegWord} (hw : dest w = .control) (hb28 : w.getLsbD 13 = true) (p : Picture) (c : Chan)
    (l h : FreqHalf) :
    (p.receiveAll [w, freqDataWord c l, freqDataWord c h]).control = some (controlFields w) ∧
    (p.receiveAll [w, freqDataWord c l, freqDataWord c h]).chan c =
      { p.chan c with low := some l, high := some h } ∧
    ∀ d, d ≠ c → (p.receiveAll [w, freqDataWord c l, freqDataWord c h]).chan d = p.chan d := by
  have hlow : (controlFields w).b28 = true := hb28
  show (((p.receive w).receive (freqDataWord c l)).receive (freqDataWord c h)).control = _ ∧
    (((p.receive w).receive (freqDataWord c l)).receive (freqDataWord c h)).chan c = _ ∧ ∀ d, d ≠ c →
    (((p.receive w).receive (freqDataWord c l)).receive (freqDataWord c h)).chan d = _
  rw [receive_freq (dest_freqDataWord c h), receive_freq (dest_freqDataWord c l), receive_control hw, hlow,
    freqDataWord_payload, freqDataWord_payload]
  cases c
  · exact ⟨rfl, rfl, fun d hd => by cases d <;> first | rfl | exact absurd rfl hd⟩
  · exact ⟨rfl, rfl, fun d hd => by cases d <;> first | rfl | exact absurd rfl hd⟩

/-- The word of SETPHASE: the channel shows it, and nothing else changes. -/
theorem receive_phaseDataWord (p : Picture) (c : Chan) (x : PhaseWord) :
    p.receive (phaseDataWord c x) = p.setChan c { p.chan c with phase := some x } := by
  rw [receive_phase (dest_phaseDataWord c x), phaseDataWord_payload]

/-! ## Agreement of one channel -/

/-- The picture of a channel shows its cached words, as far as they have been written. -/
def Shows (v : ChipChannel) (c : Channel) : Prop :=
  (c.freqWritten = true → v.freq = some c.freqw) ∧ (c.phaseWritten = true → v.phase = some c.phasew)

theorem Shows.storeFreq {v : ChipChannel} {c : Channel} (h : Shows v c) (f : Bits64) (fw : FreqWord) :
    Shows { v with low := some (lo14 fw), high := some (hi14 fw) }
      { c with reqf := f, freqw := fw, freqWritten := true } :=
  ⟨fun _ => congrArg some (hi14_append_lo14 fw), h.2⟩

theorem Shows.storePhase {v : ChipChannel} {c : Channel} (h : Shows v c) (x : Tenths) (pw : PhaseWord) :
    Shows { v with phase := some pw } { c with reqp := x, phasew := pw, phaseWritten := true } :=
  ⟨h.1, fun _ => rfl⟩

/-- What `PictureAgrees` asks of the picture of a state. -/
def Agrees (p : Picture) (s : State) : Prop :=
  (s.inited = true → p.control = some (controlFields s.ctl)) ∧ ∀ c, Shows (p.chan c) (s.chan c)

theorem pictureAgrees_iff (s : State) : PictureAgrees s ↔ Agrees (replay (words s.tx)) s := Iff.rfl

/-! ## Each instruction keeps the agreement -/

theorem Agrees.exec_control (hc : isControlOp i = true) (hlegal : CtlLegal s) (hp : Agrees p s)
    (h : exec i s = .next t) : Agrees (p.receiveAll (sentWords i s)) t := by
  obtain ⟨ws, hws, hdest, hlast⟩ := controlOperationsSendOnlyControlWords i s t hc hlegal h
  obtain rfl : ws = sentWords i s := List.append_cancel_left (hws.symm.trans (exec_next_words h))
  obtain ⟨hchan, hcontrol⟩ := receiveAll_control hdest p
  obtain ⟨-, rfl⟩ := exec_next_of_isControlOp hc h
  refine ⟨fun _ => ?_, fun c => ?_⟩
  · rw [hcontrol, hlast]; rfl
  · rw [hchan]
    exact hp.2 c

theorem Agrees.doSetFreq (hs : s.inited = true) (hlegal : CtlLegal s) (hp : Agrees p s) (c : Chan) (f : Bits64) :
    Agrees (p.receiveAll (sentWords (.setFreq c f) s)) (s.doSetFreq c f) := by
  obtain ⟨hcontrol, hself, hother⟩ := receiveAll_freq (hlegal hs).dest_setBits_b28 (setBits_b28_bit13 s.ctl) p c
    (lo14 (s.frequencyWord f)) (hi14 (s.frequencyWord f))
  refine ⟨fun _ => ?_, fun d => ?_⟩
  · rw [State.doSetFreq_ctl]
    exact hcontrol
  · by_cases hd : d = c
    · subst hd
      rw [State.chan_doSetFreq_self, sentWords, hself]
      exact (hp.2 d).storeFreq f _
    · rw [State.chan_doSetFreq_ne s hd, sentWords, hother d hd]
      exact hp.2 d

theorem Agrees.doSetPhase (hp : Agrees p s) (c : Chan) (x : Tenths) :
    Agrees (p.receiveAll (sentWords (.setPhase c x) s)) (s.doSetPhase c x) := by
  have hreceive : p.receiveAll (sentWords (.setPhase c x) s) =
      p.setChan c { p.chan c with phase := some (phaseWord x) } := receive_phaseDataWord p c (phaseWord x)
  rw [hreceive]
  refine ⟨fun hs => ?_, fun d => ?_⟩
  · rw [Picture.setChan_control, State.doSetPhase_ctl]
    exact hp.1 (by simpa using hs)
  · by_cases hd : d = c
    · subst hd
      rw [State.chan_doSetPhase_self, Picture.chan_setChan_self]
      exact (hp.2 d).storePhase x _
    · rw [State.chan_doSetPhase_ne s hd, Picture.chan_setChan_ne p hd]
      exact hp.2 d

/-- The words of INIT (R141), with the two halves and the phase word it sends. -/
def initSequence (l h : FreqHalf) (x : PhaseWord) : List RegWord :=
  [0x2000#16, 0x2100#16] ++ ([0x2100#16, freqDataWord .ch0 l, freqDataWord .ch0 h] ++
    ([phaseDataWord .ch0 x] ++ [0x2100#16, 0x2000#16, 0x2000#16, 0x2000#16, 0x2000#16]))

theorem sentWords_init (ref : Bits64) (s : State) :
    sentWords (.init ref) s = initSequence (lo14 ({ s with refclk := ref }.frequencyWord initFreq))
      (hi14 ({ s with refclk := ref }.frequencyWord initFreq)) (phaseWord 0#16) := rfl

/-- After the words of INIT the control register shows the seed, channel 0 the three values, and channel 1 what it
showed. -/
theorem receiveAll_initSequence (p : Picture) (l h : FreqHalf) (x : PhaseWord) :
    (p.receiveAll (initSequence l h x)).control = some (controlFields 0x2000#16) ∧
    (p.receiveAll (initSequence l h x)).chan .ch0 = ⟨some l, some h, some x⟩ ∧
    (p.receiveAll (initSequence l h x)).chan .ch1 = p.chan .ch1 := by
  rw [initSequence, Picture.receiveAll_append, Picture.receiveAll_append, Picture.receiveAll_append]
  have hreleased : dest 0x2000#16 = .control := dest_of_tag rfl
  have hheld : dest 0x2100#16 = .control := dest_of_tag rfl
  have hseed : ∀ w ∈ [0x2000#16, 0x2100#16], dest w = .control := by simp [hreleased, hheld]
  have htail : ∀ w ∈ [0x2100#16, 0x2000#16, 0x2000#16, 0x2000#16, 0x2000#16], dest w = .control := by
    simp [hreleased, hheld]
  obtain ⟨hchan, -⟩ := receiveAll_control hseed p
  generalize p.receiveAll [0x2000#16, 0x2100#16] = p1 at *
  obtain ⟨-, hself, hother⟩ := receiveAll_freq hheld (by decide) p1 .ch0 l h
  generalize p1.receiveAll [0x2100#16, freqDataWord .ch0 l, freqDataWord .ch0 h] = p2 at *
  have hphase : p2.receiveAll [phaseDataWord .ch0 x] = p2.setChan .ch0 { p2.chan .ch0 with phase := some x } :=
    receive_phaseDataWord p2 .ch0 x
  obtain ⟨hlast, hcontrol⟩ := receiveAll_control htail (p2.receiveAll [phaseDataWord .ch0 x])
  refine ⟨hcontrol, ?_, ?_⟩
  · rw [hlast, hphase, Picture.chan_setChan_self, hself]
  · rw [hlast, hphase, Picture.chan_setChan_ne _ (by decide), hother .ch1 (by decide), hchan]

theorem Agrees.doInit (hp : Agrees p s) (ref : Bits64) :
    Agrees (p.receiveAll (sentWords (.init ref) s)) (s.doInit ref) := by
  obtain ⟨hcontrol, hch0, hch1⟩ := receiveAll_initSequence p (lo14 ({ s with refclk := ref }.frequencyWord initFreq))
    (hi14 ({ s with refclk := ref }.frequencyWord initFreq)) (phaseWord 0#16)
  rw [sentWords_init, State.doInit_eq]
  refine ⟨fun _ => hcontrol, fun c => ?_⟩
  cases c with
  | ch0 =>
    rw [hch0]
    exact ⟨fun _ => congrArg some (hi14_append_lo14 _), fun _ => rfl⟩
  | ch1 =>
    rw [hch1]
    exact hp.2 .ch1

theorem PictureAgrees.exec (hcmd : isCommand i = true) (hlegal : CtlLegal s) (hs : PictureAgrees s)
    (h : exec i s = .next t) : PictureAgrees t := by
  rw [pictureAgrees_iff] at hs ⊢
  rw [exec_next_words h, replay_append]
  obtain ⟨hc, -, -⟩ | ⟨c, f, rfl, hinit, rfl⟩ | ⟨c, x, rfl, -, rfl⟩ | ⟨ref, rfl, -, rfl⟩ | ⟨hc, -⟩ := exec_next_cases h
  · exact hs.exec_control hc hlegal h
  · exact hs.doSetFreq hinit hlegal c f
  · exact hs.doSetPhase c x
  · exact hs.doInit ref
  · rw [hcmd] at hc
    cases hc

/-- Settles O38: each command's words put in the picture what the command puts in the state. -/
theorem stepKeepsTheChipPictureInAgreement : Obligations.StepKeepsTheChipPictureInAgreement := by
  intro s t hidle hlegal hs h
  obtain ⟨ht, rfl | ⟨cs, i, hcmd, hx⟩⟩ := idle_step_cases hidle h
  · exact ⟨ht, hs⟩
  · exact ⟨ht, PictureAgrees.exec (s := { s with commands := cs }) hcmd hlegal hs hx⟩

/-! ## The bits the picture ignores -/

/-- The nine fields of a control word are the bits of mask 0x2DEA (R12, R55). -/
theorem controlFields_eq_iff (v w : RegWord) :
    controlFields v = controlFields w ↔ v &&& 0x2DEA#16 = w &&& 0x2DEA#16 := by
  rw [mask_bits v]
  simp [controlFields]
  tauto

theorem and_low12 (w : RegWord) : w &&& 0x0FFF#16 = (w.extractLsb' 0 12).setWidth 16 := by
  apply BitVec.eq_of_getLsbD_eq
  intro k hk
  interval_cases k <;> simp

/-- The phase word of a register word is the bits of mask 0x0FFF (R53, R55). -/
theorem extractLsb'_phase_eq_iff (v w : RegWord) :
    v.extractLsb' 0 12 = w.extractLsb' 0 12 ↔ v &&& 0x0FFF#16 = w &&& 0x0FFF#16 := by
  constructor
  · intro h
    rw [and_low12, and_low12, h]
  · intro h
    have hmask : (0x0FFF#16).extractLsb' 0 12 = BitVec.allOnes 12 := by decide
    rw [← BitVec.and_allOnes (x := v.extractLsb' 0 12), ← BitVec.and_allOnes (x := w.extractLsb' 0 12), ← hmask,
      ← BitVec.extractLsb'_and, ← BitVec.extractLsb'_and, h]

/-- Settles O57: the picture takes from a control word its fields, from a phase word its low 12 bits. -/
theorem replayIgnoresTheReservedBits : Obligations.ReplayIgnoresTheReservedBits := by
  intro p v w hdest
  refine ⟨fun hw => ?control, fun c hw => ?phase⟩
  case control =>
    rw [receive_control hw, receive_control (hdest.trans hw), ← controlFields_eq_iff]
    constructor
    · intro h
      injection h with hcontrol
      exact Option.some.inj hcontrol
    · intro h
      rw [h]
  case phase =>
    rw [receive_phase hw, receive_phase (hdest.trans hw), ← extractLsb'_phase_eq_iff]
    constructor
    · intro h
      have hchan := congrArg (fun q => (q.chan c).phase) h
      simpa using hchan
    · intro h
      rw [h]

end Sys2Proof.Machine
end

section
/-! SUPPORT. Runs of several steps: a command against its register writes one by one (spec/10_state.md R26), and the
commands that lead to each legal control word (R13). -/

namespace Sys2Proof.Machine

variable {i : Instr} {s t : State}

/-! ## Register writes one by one -/

theorem registerWord_of_encode {w : RegWord} (he : encode i = .write w) : isCommand i = false ∧ registerWord i = w := by
  cases i <;> cases he <;> exact ⟨rfl, rfl⟩

/-- A word of a W16 row that waits is sent by the next step, which changes nothing else. -/
theorem step_of_row {w : RegWord} {ws : List RegWord} (hw : s.writes = w :: ws)
    (hrow : ∃ row ∈ writeRows, w &&& row.1 = row.2) :
    step s = .next { s with writes := ws, tx := s.tx ++ frame w } := by
  obtain ⟨i, hd⟩ := decodeWrite_of_row hrow
  obtain ⟨hc, hword⟩ := registerWord_of_encode (encode_of_decodeWrite hd).2
  rw [step_of_write hw hd, exec_of_isCommand_false hc, hword, frames_cons, frames_nil, List.append_nil]

theorem run_succ {k : Nat} (h : step s = .next t) : Host.Core.run core (k + 1) s = Host.Core.run core k t := by
  have hstep : core.step s = .next t := h
  simp only [Host.Core.run, hstep]

/-- Waiting words of W16 rows are sent in order, one a step. -/
theorem run_writes (ws : List RegWord) (hrows : ∀ w ∈ ws, ∃ row ∈ writeRows, w &&& row.1 = row.2) (s : State)
    (hw : s.writes = ws) :
    Host.Core.run core ws.length s = .next { s with writes := [], tx := s.tx ++ frames ws } := by
  induction ws generalizing s with
  | nil =>
    show Host.Outcome.next s = _
    rw [frames_nil, List.append_nil, ← hw]
    rfl
  | cons w ws ih =>
    rw [List.length_cons, run_succ (step_of_row hw (hrows w List.mem_cons_self)),
      ih (fun v hv => hrows v (List.mem_cons_of_mem w hv)) _ rfl, frames_cons, List.append_assoc]

/-- Settles O41: each word a command sends is on a row, so the words run one by one to the same `TX`. -/
theorem commandIsItsRegisterWritesOneByOne : Obligations.CommandIsItsRegisterWritesOneByOne := by
  intro i s t hcmd hlegal hidle h
  obtain ⟨ws, hws, hrows⟩ := everyEmittedWordMatchesATableRow i s t hcmd hlegal h
  obtain rfl : ws = sentWords i s := List.append_cancel_left (hws.symm.trans (exec_next_words h))
  have hwrites : t.writes = [] := (exec_next_elements h).2.2.trans hidle
  refine ⟨sentWords i s, sentWords_length i s, ?_⟩
  rw [run_writes (sentWords i s) hrows _ rfl, ← exec_next_tx h, ← hwrites]

/-! ## Commands that lead to a control word -/

/-- The command word of a command; the second case is for the register writes, which have none. -/
def commandOf (i : Instr) : Command :=
  match encode i with
  | .command c => c
  | .write _ => 0#72

theorem decodeCommand_commandOf (hcmd : isCommand i = true) : decodeCommand (commandOf i) = .ok i := by
  rw [decodeCommand_eq_ok_iff]
  cases i <;> cases hcmd <;> exact ⟨rfl, rfl⟩

/-- A command that completes, at the head of the list, is one step of a run. -/
theorem run_command {cs : List Command} {k : Nat} (hcmd : isCommand i = true) (hidle : s.writes = [])
    (hc : s.commands = commandOf i :: cs) (h : exec i { s with commands := cs } = .next t) :
    Host.Core.run core (k + 1) s = Host.Core.run core k t :=
  run_succ ((step_of_command hidle hc (decodeCommand_commandOf hcmd)).trans h)

/-- The mode an instruction other than INIT records, from the one before (R20). -/
def modeAfter : Instr → Mode → Mode
  | .setModeOff, _ => .off
  | .setModeSine, _ => .sine
  | .setModeTriangle, _ => .triangle
  | .setModeSquareHalf, _ => .squareHalf
  | .setModeSquareFull, _ => .squareFull
  | _, m => m

theorem exec_next_mode (hi : ∀ ref, i ≠ .init ref) (h : exec i s = .next t) :
    t.activeMode = modeAfter i s.activeMode := by
  obtain ⟨hc, -, rfl⟩ | ⟨c, f, rfl, -, rfl⟩ | ⟨c, x, rfl, -, rfl⟩ | ⟨ref, rfl, -, -⟩ | ⟨hc, rfl⟩ := exec_next_cases h
  · cases i with
    | reset hold => cases hold <;> rfl
    | _ => rfl
  · exact s.doSetFreq_activeMode c f
  · exact s.doSetPhase_activeMode c x
  · exact absurd rfl (hi ref)
  · cases i <;> cases hc <;> rfl

/-- `CTL` after a list of instructions other than INIT. -/
def ctlAfter (is : List Instr) (c : RegWord) : RegWord :=
  is.foldl (fun c i => maskBits (clearMask i) (setMask i) c) c

/-- The mode after a list of instructions other than INIT. -/
def modeAfterAll (is : List Instr) (m : Mode) : Mode := is.foldl (fun m i => modeAfter i m) m

/-- A list of commands other than INIT runs from an initialised state to its end. -/
theorem run_commands (is : List Instr) (his : ∀ i ∈ is, isCommand i = true ∧ ∀ ref, i ≠ .init ref) (s : State)
    (hs : s.inited = true) (hidle : s.writes = []) (hc : s.commands = is.map commandOf) :
    ∃ t, Host.Core.run core is.length s = .next t ∧ t.ctl = ctlAfter is s.ctl ∧
      t.activeMode = modeAfterAll is s.activeMode := by
  induction is generalizing s with
  | nil => exact ⟨s, rfl, rfl, rfl⟩
  | cons i is ih =>
    obtain ⟨hcmd, hi⟩ := his i List.mem_cons_self
    obtain ⟨u, hu⟩ := exec_next_of_inited (s := { s with commands := is.map commandOf }) hi hs
    obtain ⟨-, hcommands, hwrites⟩ := exec_next_elements hu
    obtain ⟨t, hrun, hctl, hmode⟩ := ih (fun j hj => his j (List.mem_cons_of_mem i hj)) u (exec_next_inited hcmd hu)
      (hwrites.trans hidle) hcommands
    refine ⟨t, ?_, ?_, ?_⟩
    · rw [List.length_cons, run_command hcmd hidle hc hu, hrun]
    · rw [hctl, exec_next_ctl hi hu]
      rfl
    · rw [hmode, exec_next_mode hi hu]
      rfl

/-- The SETMODE of a mode. -/
def setModeOf : Mode → Instr
  | .off => .setModeOff
  | .sine => .setModeSine
  | .triangle => .setModeTriangle
  | .squareHalf => .setModeSquareHalf
  | .squareFull => .setModeSquareFull

/-- After INIT: a square mode for `DIV2`, then the mode, the selects and the reset bit. -/
def pathTo (m : Mode) (div2 fselect pselect hold : Bool) : List Instr :=
  [if div2 then .setModeSquareHalf else .setModeSquareFull, setModeOf m, .setAFreq (chanOfBit fselect),
    .setAPhase (chanOfBit pselect), .reset hold]

theorem pathTo_commands (m : Mode) (div2 fselect pselect hold : Bool) :
    ∀ i ∈ pathTo m div2 fselect pselect hold, isCommand i = true ∧ ∀ ref, i ≠ .init ref := by
  cases m <;> cases div2 <;> simp [pathTo, setModeOf, isCommand]

theorem getLsbD_flag (b : Bool) (m : RegWord) (k : Nat) :
    (if b then m else 0#16).getLsbD k = (b && m.getLsbD k) := by
  cases b <;> simp

/-- A legal control word in terms of its mode and its four free bits (R13). -/
theorem LegalControl.eq_fields {w : RegWord} {m : Mode} (h : LegalControl w m) :
    w = 0x2000#16 ||| modePattern m ||| (if w.getLsbD 3 then 0x0008#16 else 0#16) |||
      (if w.getLsbD 11 then 0x0800#16 else 0#16) ||| (if w.getLsbD 10 then 0x0400#16 else 0#16) |||
      (if w.getLsbD 8 then 0x0100#16 else 0#16) := by
  obtain ⟨hzero, hb28, hmode, -, -⟩ := h
  apply BitVec.eq_of_getLsbD_eq
  intro k hk
  have hz : (w.getLsbD k && (0xD215#16).getLsbD k) = false := by rw [← BitVec.getLsbD_and, hzero, BitVec.getLsbD_zero]
  have hb : (w.getLsbD k && (0x2000#16).getLsbD k) = (0x2000#16).getLsbD k := by rw [← BitVec.getLsbD_and, hb28]
  simp only [BitVec.getLsbD_or, getLsbD_flag, ← hmode, BitVec.getLsbD_and]
  interval_cases k <;> simp at hz hb ⊢ <;> assumption

/-- From the seed, the path to a legal word ends there. -/
theorem ctlAfter_pathTo {w : RegWord} {m : Mode} (h : LegalControl w m) :
    ctlAfter (pathTo m (w.getLsbD 3) (w.getLsbD 11) (w.getLsbD 10) (w.getLsbD 8)) 0x2000#16 = w := by
  have hfields := h.eq_fields
  obtain ⟨-, -, -, hhalf, hfull⟩ := h
  conv_rhs => rw [hfields]
  clear hfields
  generalize w.getLsbD 3 = b3, w.getLsbD 11 = b11, w.getLsbD 10 = b10, w.getLsbD 8 = b8 at *
  revert b3 b11 b10 b8
  cases m <;> decide

theorem modeAfterAll_pathTo (m : Mode) (div2 fselect pselect hold : Bool) (m' : Mode) :
    modeAfterAll (pathTo m div2 fselect pselect hold) m' = m := by
  cases m <;> rfl

/-- The pattern of 25000000.0, a clock in the contract. -/
def sampleClock : Bits64 := 0x4177D78400000000#64

theorem validReferenceClock_sampleClock : validReferenceClock sampleClock = true :=
  (validReferenceClock_bits _).mpr ⟨by decide, by decide, by decide⟩

/-- INIT and then a list of other commands runs from any state to its end, starting from the seed and mode sine. -/
theorem run_init_commands (is : List Instr) (his : ∀ i ∈ is, isCommand i = true ∧ ∀ ref, i ≠ .init ref) (s : State) :
    ∃ t, Host.Core.run core (is.length + 1)
        { s with commands := commandOf (.init sampleClock) :: is.map commandOf, writes := [] } = .next t ∧
      t.ctl = ctlAfter is 0x2000#16 ∧ t.activeMode = modeAfterAll is .sine := by
  have hinit := exec_init_of_valid validReferenceClock_sampleClock { s with commands := is.map commandOf, writes := [] }
  obtain ⟨-, hcommands, hwrites⟩ := exec_next_elements hinit
  obtain ⟨t, hrun, hctl, hmode⟩ := run_commands is his _ (exec_next_inited rfl hinit) hwrites hcommands
  rw [State.doInit_eq] at hctl hmode
  exact ⟨t, (run_command rfl rfl rfl hinit).trans hrun, hctl, hmode⟩

/-- Settles O36: INIT, then the path to the word. -/
theorem everyLegalControlWordIsReached : Obligations.EveryLegalControlWordIsReached := by
  intro s w m h
  obtain ⟨t, hrun, hctl, hmode⟩ := run_init_commands _
    (pathTo_commands m (w.getLsbD 3) (w.getLsbD 11) (w.getLsbD 10) (w.getLsbD 8)) s
  refine ⟨commandOf (.init sampleClock) :: (pathTo m (w.getLsbD 3) (w.getLsbD 11) (w.getLsbD 10) (w.getLsbD 8)).map
    commandOf, t, le_rfl, ?run, hctl.trans (ctlAfter_pathTo h), hmode.trans (modeAfterAll_pathTo ..)⟩
  case run =>
    rw [List.length_cons, List.length_map]
    exact hrun

end Sys2Proof.Machine
end

section
/-! SUPPORT. The rounding and the frequency word (spec/40_codec.md R81 to R94): `RN64` is the nearest value with ties to
even, and the integer of the frequency formula against the real number `x = f × 2^28 / ref`. -/

namespace Sys2Proof.Machine

/-! ## Nearest, ties to even -/

/-- A binary64 value is a multiple of every power of two up to that of its exponent. -/
theorem F64.exists_multiple (neg : Bool) (m : Nat) {e E : Int} (h : E ≤ e) :
    ∃ k : Int, (F64.fin neg m e).toRat = k * 2 ^ E := by
  refine ⟨(if neg then -1 else 1) * (m * 2 ^ (e - E).toNat), ?_⟩
  have hsplit : (2 : ℚ) ^ e = 2 ^ (e - E).toNat * 2 ^ E := by rw [pow_two_mul]; congr 1; omega
  rw [F64.toRat, hsplit]
  push_cast
  ring

/-- Every other binary64 value is on the grid that rounded `r`, or farther than the result. -/
theorem Rounds.multiple_or_farther {r : Frac} {v w : F64} {E : Int} {M : Nat} (h : Rounds r v E M)
    (hw : w.Representable) : (∃ k : Int, w.toRat = k * 2 ^ E) ∨ |v.toRat - r.toRat| < |w.toRat - r.toRat| := by
  cases w with
  | nan => exact hw.elim
  | inf _ => exact hw.elim
  | fin neg m e =>
    obtain ⟨hm, he, -⟩ := hw
    by_cases hE : E ≤ e
    · exact .inl (F64.exists_multiple neg m hE)
    · right
      have habove : (2 : ℚ) ^ 52 * 2 ^ E ≤ |r.toRat| := by
        rcases h.above with ha | ha
        · exact ha
        · omega
      have hsmall : |(F64.fin neg m e).toRat| < 2 ^ 52 * 2 ^ E := by
        have hm' : (m : ℚ) < 2 ^ 53 := by exact_mod_cast hm
        rw [F64.abs_toRat]
        calc (m : ℚ) * 2 ^ e < 2 ^ 53 * 2 ^ e := by gcongr
          _ ≤ 2 ^ 52 * 2 ^ E := by
            rw [pow_two_mul, pow_two_mul]
            exact zpow_le_zpow_right₀ (by norm_num) (by push_cast; omega)
      have hgrid := h.nearest_multiple (2 ^ 52)
      rw [show (((2 : Int) ^ 52 : Int) : ℚ) = 2 ^ 52 by norm_cast, ← h.error_eq,
        abs_sub_comm (2 ^ 52 * 2 ^ E : ℚ), abs_of_nonneg (sub_nonneg.mpr habove)] at hgrid
      have hdist := abs_sub_abs_le_abs_sub r.toRat (F64.fin neg m e).toRat
      rw [abs_sub_comm r.toRat] at hdist
      linarith

/-- Where another value is as near, the result is half a grid step away, so its integer is even. -/
theorem Rounds.even_of_tie {r : Frac} {v w : F64} {E : Int} {M : Nat} (h : Rounds r v E M) (hw : w.Representable)
    (htie : |v.toRat - r.toRat| = |w.toRat - r.toRat|) (hne : w.toRat ≠ v.toRat) : M % 2 = 0 := by
  have hP : (0 : ℚ) < 2 ^ E := by positivity
  obtain ⟨k, hk⟩ | hfar := h.multiple_or_farther hw
  · obtain ⟨j, hj⟩ : ∃ j : Int, v.toRat = j * 2 ^ E :=
      ⟨(if r.num < 0 then -1 else 1) * M, by rw [h.value]; push_cast; ring⟩
    have hkj : k ≠ j := fun he => hne (by rw [hk, hj, he])
    have hstep : (2 : ℚ) ^ E ≤ |w.toRat - v.toRat| := by
      have hone : (1 : ℚ) ≤ |(k : ℚ) - j| := by exact_mod_cast Int.one_le_abs (sub_ne_zero.mpr hkj)
      rw [hk, hj, ← sub_mul, abs_mul, abs_of_pos hP]
      exact le_mul_of_one_le_left hP.le hone
    have htri := abs_sub_le w.toRat r.toRat v.toRat
    rw [abs_sub_comm r.toRat, ← htie] at htri
    have hnear := h.near
    rw [← h.error_eq] at hnear
    apply h.even
    rw [← h.error_eq]
    linarith
  · exact absurd htie hfar.ne

/-- Settles O42: above the bound the infinity of the sign; below it the grid's nearest integer, even at a tie. -/
theorem roundingIsNearestTiesToEven : Obligations.RoundingIsNearestTiesToEven := by
  intro r hd
  rw [← f64Overflow_cast]
  refine ⟨fun hover => ?_, fun hbelow => ?_⟩
  · rw [rn64_overflow hd hover]
    congr 1
    exact decide_eq_decide.mpr (Frac.num_neg_iff hd)
  · obtain ⟨E, M, hr⟩ := rn64_rounds hd hbelow
    generalize hv : rn64 r = v at hr
    cases v with
    | nan => exact absurd hr.finite Bool.false_ne_true
    | inf _ => exact absurd hr.finite Bool.false_ne_true
    | fin neg m e =>
      refine ⟨neg, m, e, rfl, hr.representable, fun w hw => ⟨?near, fun htie hne => ?even⟩⟩
      case near => exact RoundsTo.nearest ⟨r, E, M, rfl, hd, hr⟩ hw
      case even => exact hr.parity (hr.even_of_tie hw htie hne) neg m e rfl

/-- Settles O43: the product by the rule of `fmul` with the scale, the sum by one rounding below the bound. -/
theorem scalingIsExactAndTheSumIsFinite : Obligations.ScalingIsExactAndTheSumIsFinite :=
  ⟨fun _ hf hlt => (fmul_freqScale hf).1 hlt, fun _ hq => (fadd_oneHalf hq).representable⟩

/-! ## Where there is no word -/

theorem frequencyWord?_eq_none_iff (f ref : Bits64) :
    frequencyWord? f ref = none ↔ frequencyCount (F64.ofBits f) (F64.ofBits ref) = none :=
  Option.map_eq_none_iff

/-- Settles O44: below both bounds the count exists, and at or above either it does not. -/
theorem frequencyWordIsOpenOnlyWhenNotFinite : Obligations.FrequencyWordIsOpenOnlyWhenNotFinite := by
  intro f ref hr
  rw [frequencyWord?_eq_none_iff, ← f64Overflow_cast]
  constructor
  · intro hnone
    by_contra hopen
    simp only [not_or, not_le] at hopen
    obtain ⟨hf, hf996, hx⟩ := hopen
    obtain ⟨_, _, n, -, -, -, hn⟩ := frequencyCount_of_finite hr hf hf996 hx
    rw [hnone] at hn
    cases hn
  · exact frequencyCount_of_open hr

/-- For an operand that is not finite, or whose product overflows, there is no word at any clock (R85). -/
theorem frequencyWord?_of_product_open {f : Bits64} (ref : Bits64)
    (h : f.extractLsb' 52 11 = 2047#11 ∨ (2 : ℚ) ^ (996 : ℤ) ≤ |bitsToRat f|) : frequencyWord? f ref = none := by
  rw [frequencyWord?_eq_none_iff]
  by_cases hf : f.extractLsb' 52 11 = 2047#11
  · have hinf : (F64.ofBits f).isFinite = false := by
      rw [Bool.eq_false_iff, ne_eq, F64.ofBits_isFinite]; exact not_not.mpr hf
    simp [frequencyCount, hinf]
  · have hfin := (F64.ofBits_isFinite f).mpr hf
    have hprod := (fmul_freqScale (F64.ofBits_representable hfin)).2 (h.resolve_left hf)
    simp [frequencyCount, hfin, hprod]

/-- Settles O45: the rule of SETFREQ at a request that has no word. -/
theorem nonfiniteFrequencyIsDrawnAndSent : Obligations.NonfiniteFrequencyIsDrawnAndSent := by
  intro s c f hinit hopen
  obtain ⟨hword, hdraws⟩ := State.frequencyWord_of_none (frequencyWord?_of_product_open s.refclk hopen)
  refine ⟨s.doSetFreq c f, exec_setFreq_of_inited hinit c f, ?_, ?_, ?_, ?_⟩
  · rw [State.chan_doSetFreq_self]
  · rw [State.chan_doSetFreq_freqw, hword]
  · rw [State.doSetFreq_draws, hdraws]
  · rw [State.words_doSetFreq, State.doSetFreq_ctl, hword]

/-! ## The wrap -/

theorem frequencyWord?_of_count {f ref : Bits64} {n : ℤ}
    (h : frequencyCount (F64.ofBits f) (F64.ofBits ref) = some n) :
    frequencyWord? f ref = some (BitVec.ofInt 28 n) := by
  rw [frequencyWord?, h]; rfl

/-- Settles O46: the low 28 bits of the integer are its remainder, from either side of 0. -/
theorem frequencyWordWrapsTheInteger : Obligations.FrequencyWordWrapsTheInteger := by
  intro f ref n h
  refine ⟨_, frequencyWord?_of_count h, fun hn => ?_, fun hn => ?_⟩
  · rw [BitVec.toNat_ofInt]
    omega
  · rw [BitVec.toNat_ofInt]
    split <;> omega

/-! ## Exact values -/

theorem lt_f64Overflow {x : ℚ} (hx : x ≤ 2 ^ 53) : x < f64Overflow := by
  have hone : (1 : ℚ) ≤ 2 ^ (971 : Int) := one_le_zpow₀ (by norm_num) (by norm_num)
  have hmax := maxFinite_lt_overflow
  generalize (2 : ℚ) ^ (971 : Int) = y at hone hmax
  linarith

/-- `RN64` of an integer of at most 53 bits, scaled by a power of two, is exact. -/
theorem RoundsTo.exact_of_eq {x : ℚ} {v : F64} (h : RoundsTo x v) {m : Nat} {e : Int} (hm : m < 2 ^ 53)
    (he : -1074 ≤ e) (he' : e ≤ 971) (hx : x = m * 2 ^ e) : v.toRat = x :=
  h.exact (w := .fin false m e) ⟨hm, he, he'⟩ (by rw [hx]; simp [F64.toRat])

/-- A value that is an integer truncates to it. -/
theorem trunc_of_nonneg {v : F64} {n : ℤ} (h : v.trunc = some n) (hv : 0 ≤ v.toRat) : n = ⌊v.toRat⌋ := by
  have hfin : v.isFinite = true := by
    cases v with
    | fin => rfl
    | _ => cases h
  obtain ⟨k, hk, hfloor, -⟩ := trunc_spec hfin
  rw [h] at hk
  cases hk
  exact hfloor hv

/-- Settles O47: `x` is 2^28, which is exact, and so is 2^28 + 1/2. -/
theorem requestEqualToTheClockWrapsToZero : Obligations.RequestEqualToTheClockWrapsToZero := by
  intro ref hr hlt
  have hpos := validReferenceClock_pos hr
  have hx : idealFrequency ref ref = 2 ^ 28 := by
    rw [idealFrequency, mul_comm, mul_div_assoc, div_self hpos.ne', mul_one]
  have hexp : ref.extractLsb' 52 11 ≠ 2047#11 := ((validReferenceClock_bits ref).mp hr).2.1
  obtain ⟨q, s, n, hq, hs, hn, hcount⟩ := frequencyCount_of_finite hr hexp (by rwa [abs_of_pos hpos]) (by
    rw [hx, abs_of_pos (by positivity)]
    exact lt_f64Overflow (by norm_num))
  have hqv : q.toRat = idealFrequency ref ref :=
    hq.exact_of_eq (m := 2 ^ 28) (e := 0) (by norm_num) (by norm_num) (by norm_num) (by rw [hx]; norm_num)
  rw [hqv, hx] at hs
  have hsv : s.toRat = 2 ^ 28 + 1 / 2 :=
    hs.exact_of_eq (m := 2 ^ 29 + 1) (e := -1) (by norm_num) (by norm_num) (by norm_num) (by norm_num)
  have hn28 : n = 2 ^ 28 := by
    rw [trunc_of_nonneg hn (by rw [hsv]; positivity), hsv]
    norm_num
  rw [hn28] at hcount
  exact ⟨hcount, frequencyWord?_of_count hcount⟩

/-! ## Small quotients -/

/-- `RN64` does not pass a binary64 value. -/
theorem RoundsTo.le_of_le {x : ℚ} {v w : F64} (h : RoundsTo x v) (hw : w.Representable) (hle : w.toRat ≤ x) :
    w.toRat ≤ v.toRat := by
  have hnear := h.nearest hw
  rw [abs_of_nonpos (by linarith : w.toRat - x ≤ 0)] at hnear
  linarith [neg_abs_le (v.toRat - x)]

theorem RoundsTo.le_of_ge {x : ℚ} {v w : F64} (h : RoundsTo x v) (hw : w.Representable) (hle : x ≤ w.toRat) :
    v.toRat ≤ w.toRat := by
  have hnear := h.nearest hw
  rw [abs_of_nonneg (by linarith : 0 ≤ w.toRat - x)] at hnear
  linarith [le_abs_self (v.toRat - x)]

/-- Binary64 values above -3/2 leave a gap of 2^-52 to it. -/
theorem F64.ge_of_gt_neg_three_halves {q : F64} (hq : q.Representable) (h : -3 / 2 < q.toRat) :
    -3 / 2 + 2 ^ (-52 : ℤ) ≤ q.toRat := by
  cases q with
  | nan => exact hq.elim
  | inf _ => exact hq.elim
  | fin neg m e =>
    obtain ⟨hm, -, -⟩ := hq
    by_cases hone : -1 ≤ (F64.fin neg m e).toRat
    · refine le_trans ?_ hone
      norm_num
    · -- below -1 the significand is full, so the value is a multiple of 2^-52
      rw [not_le] at hone
      have habs : (1 : ℚ) < m * 2 ^ e := by
        rw [← F64.abs_toRat neg]
        linarith [neg_abs_le (F64.fin neg m e).toRat]
      have he : -52 ≤ e := by
        by_contra hlt
        have hm' : (m : ℚ) < 2 ^ 53 := by exact_mod_cast hm
        have hsmall : (m : ℚ) * 2 ^ e ≤ 2 ^ 53 * 2 ^ (-53 : ℤ) :=
          mul_le_mul hm'.le (zpow_le_zpow_right₀ (by norm_num) (by omega)) (by positivity) (by positivity)
        norm_num at hsmall
        linarith
      obtain ⟨j, hj⟩ := F64.exists_multiple neg m he
      have hstep : (-3 * 2 ^ 51 : ℤ) < j := by
        rw [hj] at h
        have hlt : ((-3 * 2 ^ 51 : ℤ) : ℚ) * 2 ^ (-52 : ℤ) < j * 2 ^ (-52 : ℤ) := by
          refine lt_of_eq_of_lt ?_ h
          norm_num
        exact_mod_cast lt_of_mul_lt_mul_right hlt (by positivity)
      have hnext : ((-3 * 2 ^ 51 + 1 : ℤ) : ℚ) ≤ j := by exact_mod_cast hstep
      rw [hj]
      calc (-3 / 2 + 2 ^ (-52 : ℤ) : ℚ) = ((-3 * 2 ^ 51 + 1 : ℤ) : ℚ) * 2 ^ (-52 : ℤ) := by norm_num
        _ ≤ j * 2 ^ (-52 : ℤ) := mul_le_mul_of_nonneg_right hnext (by positivity)

/-- A finite value between -1 and 1 truncates to 0. -/
theorem trunc_eq_zero {v : F64} (hv : v.isFinite = true) (hlow : -1 < v.toRat) (hhigh : v.toRat < 1) :
    v.trunc = some 0 := by
  obtain ⟨n, hn, hfloor, hceil⟩ := trunc_spec hv
  rw [hn]
  rcases le_total 0 v.toRat with h0 | h0
  · rw [hfloor h0, Int.floor_eq_zero_iff.mpr ⟨h0, hhigh⟩]
  · rw [hceil h0, Int.ceil_eq_zero_iff.mpr ⟨hlow, h0⟩]

/-- Settles O48: `q + 1/2` lies between two binary64 values inside (-1, 1), so its rounding does. -/
theorem smallNegativeQuotientTruncatesToZero : Obligations.SmallNegativeQuotientTruncatesToZero := by
  intro q hq hlow hhigh
  have hs := fadd_oneHalf hq
  have hgap := F64.ge_of_gt_neg_three_halves hq hlow
  have habove : (F64.fin true (2 ^ 52 - 1) (-52)).toRat ≤ (fadd q oneHalf).toRat := by
    refine hs.le_of_le ⟨by norm_num, by norm_num, by norm_num⟩ ?_
    refine le_trans (le_of_eq ?_) (add_le_add_left hgap (1 / 2))
    simp only [F64.toRat]
    norm_num
  have hbelow : (fadd q oneHalf).toRat ≤ oneHalf.toRat := by
    refine hs.le_of_ge ⟨by norm_num, by norm_num, by norm_num⟩ ?_
    rw [oneHalf_toRat]
    linarith
  refine trunc_eq_zero hs.finite (lt_of_lt_of_le ?_ habove) (lt_of_le_of_lt hbelow ?_)
  · simp only [F64.toRat]
    norm_num
  · rw [oneHalf_toRat]
    norm_num

/-! ## The integer against the real number -/

/-- Settles O49: a half-integer below 2^52 is exact, and so is the integer half above it. -/
theorem exactTiesRoundUp : Obligations.ExactTiesRoundUp := by
  intro f ref n k hr hn h0 hlt hk
  obtain ⟨q, s, hq, hs, hns⟩ := frequencyCount_chain hr hn
  generalize idealFrequency f ref = x at *
  have hkpos : 0 < k := by
    have : (0 : ℚ) < k := by linarith
    exact_mod_cast this
  have hkle : k ≤ 2 ^ 52 := by
    have hlt' : (k : ℚ) < (2 ^ 52 + 1 : ℤ) := by push_cast; linarith
    have hlt'' : k < 2 ^ 52 + 1 := by exact_mod_cast hlt'
    omega
  obtain ⟨j, rfl⟩ := Int.eq_ofNat_of_zero_le hkpos.le
  have hqv : q.toRat = x := by
    refine hq.exact_of_eq (m := 2 * j - 1) (e := -1) (by omega) (by norm_num) (by norm_num) ?_
    rw [Nat.cast_sub (by omega), zpow_neg_one]
    push_cast at hk ⊢
    linarith
  rw [hqv, hk] at hs
  have hsv : s.toRat = ((j : ℤ) : ℚ) :=
    hs.exact_of_eq (m := j) (e := 0) (by omega) (by norm_num) (by norm_num) (by simp)
  rw [trunc_of_nonneg hns (by rw [hsv]; positivity), hsv, Int.floor_intCast]

/-- The sum `s` of the chain is nonnegative and within the margin of `x + 1/2`, and the count is its floor. -/
theorem frequencyCount_margin {f ref : Bits64} {n : ℤ} (hr : validReferenceClock ref = true)
    (hn : frequencyCount (F64.ofBits f) (F64.ofBits ref) = some n) (h0 : 0 ≤ idealFrequency f ref) :
    ∃ s : ℚ, 0 ≤ s ∧ n = ⌊s⌋ ∧
      |s - (idealFrequency f ref + 1 / 2)| ≤ (idealFrequency f ref + 1) * 2 ^ (-51 : ℤ) := by
  obtain ⟨q, s, hq, hs, hns⟩ := frequencyCount_chain hr hn
  have hq0 := hq.nonneg h0
  have hs0 := hs.nonneg (by linarith)
  refine ⟨s.toRat, hs0, trunc_of_nonneg hns hs0, ?_⟩
  have eq := hq.error_le
  have es := hs.error_le
  generalize idealFrequency f ref = x at *
  rw [abs_of_nonneg h0] at eq
  rw [abs_of_nonneg (by linarith : (0 : ℚ) ≤ q.toRat + 1 / 2)] at es
  have htiny : (2 : ℚ) ^ (-1075 : ℤ) ≤ 2 ^ (-56 : ℤ) := zpow_le_zpow_right₀ (by norm_num) (by norm_num)
  generalize (2 : ℚ) ^ (-1075 : ℤ) = η at htiny eq es
  norm_num at eq es htiny ⊢
  rw [abs_le] at eq es ⊢
  constructor <;> linarith

/-- Settles O50: the floor is within one of `s`, and `s` within the margin of `x + 1/2`. -/
theorem frequencyCountIsWithinAHalfAndTheMargin : Obligations.FrequencyCountIsWithinAHalfAndTheMargin := by
  intro f ref n hr hn h0
  obtain ⟨s, hs0, rfl, hmargin⟩ := frequencyCount_margin hr hn h0
  refine ⟨Int.floor_nonneg.mpr hs0, ?_⟩
  have hlow := Int.floor_le s
  have hhigh := Int.lt_floor_add_one s
  rw [abs_le] at hmargin ⊢
  constructor <;> linarith

/-- Settles O51: an integer between `s` and `x + 1/2` would be within the margin. -/
theorem frequencyCountIsTheRealRounding : Obligations.FrequencyCountIsTheRealRounding := by
  intro f ref n hr hn h0 hfar
  obtain ⟨s, -, rfl, hmargin⟩ := frequencyCount_margin hr hn h0
  generalize (idealFrequency f ref + 1) * 2 ^ (-51 : ℤ) = δ at *
  generalize idealFrequency f ref + 1 / 2 = y at *
  rw [abs_le] at hmargin
  have hlow := Int.floor_le s
  have hhigh := Int.lt_floor_add_one s
  rw [eq_comm, Int.floor_eq_iff]
  constructor
  · by_contra hlt
    have hk := hfar ⌊s⌋
    rw [abs_of_nonpos (by linarith)] at hk
    linarith
  · by_contra hge
    have hk := hfar (⌊s⌋ + 1)
    push_cast at hk
    rw [abs_of_nonneg (by linarith)] at hk
    linarith

/-- Settles O52: the quotient, the sum and the truncation each keep the order. -/
theorem frequencyCountIsMonotone : Obligations.FrequencyCountIsMonotone := by
  intro f g ref n k hr hn hk hfg
  obtain ⟨q, s, hq, hs, hns⟩ := frequencyCount_chain hr hn
  obtain ⟨q', s', hq', hs', hks⟩ := frequencyCount_chain hr hk
  have hpos := validReferenceClock_pos hr
  have hx : idealFrequency f ref ≤ idealFrequency g ref := by
    unfold idealFrequency
    gcongr
  have hqq : q.toRat ≤ q'.toRat := hq.mono hq' hx
  have hss : s.toRat ≤ s'.toRat := hs.mono hs' (by linarith)
  exact trunc_mono hns hks hss

end Sys2Proof.Machine
end

section
/-! SUPPORT. The phase word (spec/40_codec.md R87 to R94): the integer form against the real formula, its turns and its
order, and the binary64 evaluation in any order of its operations. -/

namespace Sys2Proof.Machine

/-! ## The integer form -/

/-- The sum that the phase units are the floor of, as one fraction (R87). -/
theorem phase_sum_eq (t : Tenths) :
    512 * ((t.toNat : ℚ) / 10) / 45 + 1 / 2 = ((512 * t.toNat + 225 : ℕ) : ℚ) / ((450 : ℕ) : ℚ) := by
  push_cast
  ring

/-- Settles O53: the floor of that fraction is the integer division, and the word is its low 12 bits. -/
theorem phaseWordIsTheHalfUpRounding : Obligations.PhaseWordIsTheHalfUpRounding := by
  intro t
  refine ⟨?_, BitVec.toNat_ofNat ..⟩
  rw [phase_sum_eq, Rat.floor_natCast_div_natCast]
  rfl

/-- Settles O54: 512 × 3600 is 4096 × 450. -/
theorem phaseWordRepeatsEveryTurn : Obligations.PhaseWordRepeatsEveryTurn := by
  refine ⟨fun t u h => ?_, by decide, by decide⟩
  have hunits : phaseUnits u = phaseUnits t + 4096 := by
    unfold phaseUnits
    omega
  refine ⟨hunits, BitVec.eq_of_toNat_eq ?_⟩
  rw [phaseWord, phaseWord, BitVec.toNat_ofNat, BitVec.toNat_ofNat, hunits]
  exact Nat.add_mod_right ..

/-- Settles O55: division by 450 keeps the order, and 4096 units are first reached at 3600 tenths. -/
theorem phaseUnitsAreMonotone : Obligations.PhaseUnitsAreMonotone := by
  constructor
  · intro t u h
    unfold phaseUnits
    gcongr
  · intro t
    unfold phaseUnits
    omega

/-! ## The binary64 form -/

/-- An operation that multiplies by `c`, rounded once, on the values the phase formula meets. -/
def Scales (c : ℚ) (op : F64 → F64) : Prop :=
  ∀ v : F64, v.Representable → 0 ≤ v.toRat → c * v.toRat ≤ 2 ^ 53 → RoundsTo (c * v.toRat) (op v)

theorem scales_fmul_512 : Scales 512 fun v => fmul (.fin false 512 0) v := by
  intro v hv h0 hle
  cases v with
  | nan => exact hv.elim
  | inf _ => exact hv.elim
  | fin neg m e =>
    obtain ⟨a, hd, ha, hop⟩ := fmul_fin false 512 0 neg m e
    have h512 : (F64.fin false 512 0).toRat = 512 := by simp [F64.toRat]
    rw [h512] at ha
    rw [← ha] at hle ⊢
    show RoundsTo a.toRat (fmul _ _)
    rw [hop]
    exact rn64_roundsTo hd (by rw [abs_of_nonneg (by rw [ha]; positivity)]; exact lt_f64Overflow hle)

theorem scales_fdiv {m : Nat} (hm : m ≠ 0) : Scales (1 / m) fun v => fdiv v (.fin false m 0) := by
  intro v hv h0 hle
  cases v with
  | nan => exact hv.elim
  | inf _ => exact hv.elim
  | fin neg k e =>
    obtain ⟨a, hd, ha, hop⟩ := fdiv_fin neg k e false 0 hm
    have hval : (F64.fin false m 0).toRat = m := by simp [F64.toRat]
    rw [hval, ← one_div_mul_eq_div] at ha
    rw [← ha] at hle ⊢
    show RoundsTo a.toRat (fdiv _ _)
    rw [hop]
    exact rn64_roundsTo hd (by rw [abs_of_nonneg (by rw [ha]; positivity)]; exact lt_f64Overflow hle)

/-- One rounding of a value of at most 2^26 is off by at most 2^-26. -/
theorem RoundsTo.error_le_of_le {x : ℚ} {v : F64} (h : RoundsTo x v) (h0 : 0 ≤ x) (hle : x ≤ 2 ^ 26) :
    |v.toRat - x| ≤ 2 ^ (-26 : ℤ) := by
  have herr := h.error_le
  have htiny : (2 : ℚ) ^ (-1075 : ℤ) ≤ 2 ^ (-56 : ℤ) := zpow_le_zpow_right₀ (by norm_num) (by norm_num)
  generalize (2 : ℚ) ^ (-1075 : ℤ) = η at htiny herr
  rw [abs_of_nonneg h0] at herr
  norm_num at herr htiny hle ⊢
  linarith

/-- A step of the evaluation: from a value within `δ` of the exact `x` to one within `c δ` and one rounding of
`c x`. -/
theorem Scales.step {c x δ : ℚ} {op : F64 → F64} {v : F64} (hop : Scales c op) (hc : 0 < c) (hv : v.Representable)
    (hv0 : 0 ≤ v.toRat) (hx : |v.toRat - x| ≤ δ) (hle : c * x + c * δ ≤ 2 ^ 26) :
    (op v).Representable ∧ 0 ≤ (op v).toRat ∧ |(op v).toRat - c * x| ≤ c * δ + 2 ^ (-26 : ℤ) := by
  have h0 : 0 ≤ c * v.toRat := by positivity
  have hclose : |c * v.toRat - c * x| ≤ c * δ := by
    rw [← mul_sub, abs_mul, abs_of_pos hc]
    exact mul_le_mul_of_nonneg_left hx hc.le
  have hbound : c * v.toRat ≤ 2 ^ 26 := by linarith [(abs_le.mp hclose).2]
  have hr := hop v hv hv0 (hbound.trans (by norm_num))
  refine ⟨hr.representable, hr.nonneg h0, ?_⟩
  have htri := abs_sub_le (op v).toRat (c * v.toRat) (c * x)
  linarith [hr.error_le_of_le h0 hbound]

theorem tenths_representable (t : Tenths) : (F64.fin false t.toNat 0).Representable :=
  ⟨by have := t.isLt; omega, by norm_num, by norm_num⟩

/-- Three scalings of the operand, with factors and partial products of at most 512, end within 2^-15 of the exact
product. -/
theorem scales_three {a b c : ℚ} {f g h : F64 → F64} (hf : Scales a f) (hg : Scales b g) (hh : Scales c h)
    (ha : 0 < a) (hb : 0 < b) (hc : 0 < c) (hab : a * b ≤ 512) (hbc : b * c ≤ 512) (ha' : a ≤ 512) (hb' : b ≤ 512)
    (hc' : c ≤ 512) (habc : a * b * c ≤ 512) (t : Tenths) :
    (h (g (f (.fin false t.toNat 0)))).Representable ∧ 0 ≤ (h (g (f (.fin false t.toNat 0)))).toRat ∧
      |(h (g (f (.fin false t.toNat 0)))).toRat - a * b * c * t.toNat| ≤ 2 ^ (-15 : ℤ) := by
  have ht0 : (0 : ℚ) ≤ t.toNat := by positivity
  have ht : (t.toNat : ℚ) ≤ 65535 := by
    have := t.isLt
    exact_mod_cast (by omega : t.toNat ≤ 65535)
  have hbound {k : ℚ} (hk : k ≤ 512) : k * t.toNat ≤ 512 * 65535 := mul_le_mul hk ht ht0 (by norm_num)
  have hval : (F64.fin false t.toNat 0).toRat = t.toNat := by simp [F64.toRat]
  obtain ⟨r1, p1, e1⟩ := hf.step (x := t.toNat) (δ := 0) ha (tenths_representable t) (by rw [hval]; positivity)
    (by rw [hval, sub_self, abs_zero]) (by linarith [hbound ha'])
  obtain ⟨r2, p2, e2⟩ := hg.step hb r1 p1 e1 (by
    have := hbound hab
    norm_num
    linarith)
  obtain ⟨r3, p3, e3⟩ := hh.step hc r2 p2 e2 (by
    have := hbound habc
    norm_num
    linarith)
  refine ⟨r3, p3, ?_⟩
  rw [show a * b * c * (t.toNat : ℚ) = c * (b * (a * t.toNat)) by ring]
  refine e3.trans ?_
  norm_num
  linarith

/-- The exact sum is an odd number of 450ths, so it stays away from every integer, and a value near it has the same
floor. -/
theorem floor_eq_phaseUnits {t : Tenths} {y : ℚ} (hy : |y - (512 / 450 * t.toNat + 1 / 2)| ≤ 2 ^ (-14 : ℤ)) :
    ⌊y⌋ = phaseUnits t := by
  have hr : 1 ≤ (512 * t.toNat + 225) % 450 ∧ (512 * t.toNat + 225) % 450 ≤ 449 := by omega
  have hdiv : 450 * phaseUnits t + (512 * t.toNat + 225) % 450 = 512 * t.toNat + 225 := Nat.div_add_mod ..
  generalize (512 * t.toNat + 225) % 450 = r at hr hdiv
  have hdiv' : (450 : ℚ) * phaseUnits t + r = 512 * t.toNat + 225 := by exact_mod_cast hdiv
  have hr1 : (1 : ℚ) ≤ r := by exact_mod_cast hr.1
  have hr2 : (r : ℚ) ≤ 449 := by exact_mod_cast hr.2
  norm_num at hy
  rw [abs_le] at hy
  rw [Int.floor_eq_iff]
  push_cast
  constructor <;> linarith

/-- Three scalings by the factors of the formula, in some order, and the sum with 0.5 truncated. -/
theorem trunc_scales_three {a b c : ℚ} {f g h : F64 → F64} (hf : Scales a f) (hg : Scales b g) (hh : Scales c h)
    (ha : 0 < a) (hb : 0 < b) (hc : 0 < c) (hab : a * b ≤ 512) (hbc : b * c ≤ 512) (ha' : a ≤ 512) (hb' : b ≤ 512)
    (hc' : c ≤ 512) (habc : a * b * c = 512 / 450) (t : Tenths) :
    (fadd (h (g (f (.fin false t.toNat 0)))) oneHalf).trunc = some (phaseUnits t : ℤ) := by
  obtain ⟨hrep, h0, herr⟩ := scales_three hf hg hh ha hb hc hab hbc ha' hb' hc' (by rw [habc]; norm_num) t
  generalize h (g (f (.fin false t.toNat 0))) = v at *
  rw [habc] at herr
  have ht : (t.toNat : ℚ) ≤ 65535 := by
    have := t.isLt
    exact_mod_cast (by omega : t.toNat ≤ 65535)
  have hs := fadd_oneHalf hrep
  have hsum : |(fadd v oneHalf).toRat - (v.toRat + 1 / 2)| ≤ 2 ^ (-26 : ℤ) := by
    refine hs.error_le_of_le (by positivity) ?_
    norm_num at herr ⊢
    linarith [(abs_le.mp herr).2]
  obtain ⟨n, hn, hfloor, -⟩ := trunc_spec hs.finite
  rw [hn, hfloor (hs.nonneg (by positivity)), floor_eq_phaseUnits]
  norm_num at herr hsum ⊢
  rw [abs_le] at herr hsum ⊢
  constructor <;> linarith

theorem perm_three {α : Type} {l : List α} {a b c : α} (h : l.Perm [a, b, c]) :
    l = [a, b, c] ∨ l = [b, a, c] ∨ l = [c, b, a] ∨ l = [b, c, a] ∨ l = [c, a, b] ∨ l = [a, c, b] := by
  have hmem := List.mem_permutations.mpr h
  simpa [List.permutations, List.permutationsAux, List.permutationsAux.rec, List.permutationsAux2] using hmem

/-- Settles O56: each of the six orders is three scalings by 512, 1/10 and 1/45. -/
theorem phaseUnitsAgreeWithBinary64 : Obligations.PhaseUnitsAgreeWithBinary64 := by
  intro t ops hperm
  have h512 := scales_fmul_512
  have h10 := scales_fdiv (m := 10) (by norm_num)
  have h45 := scales_fdiv (m := 45) (by norm_num)
  obtain rfl | rfl | rfl | rfl | rfl | rfl := perm_three hperm
  · apply trunc_scales_three h512 h10 h45 <;> norm_num
  · apply trunc_scales_three h10 h512 h45 <;> norm_num
  · apply trunc_scales_three h45 h10 h512 <;> norm_num
  · apply trunc_scales_three h10 h45 h512 <;> norm_num
  · apply trunc_scales_three h45 h512 h10 <;> norm_num
  · apply trunc_scales_three h512 h45 h10 <;> norm_num

end Sys2Proof.Machine
end
